-- ==== Sys2Proof/Word.lean ====
section
/-! DEFINITION. The word types of the engines: 64-bit registers, digests, mixing states and storage words, 8-bit bytes
(spec 00_scope.md R9, R11). -/

namespace Sys2Proof

/-- A 64-bit register, digest, mixing state or storage word (R11). -/
abbrev Word := BitVec 64

/-- One byte of the key buffer or of the storage space (R11). -/
abbrev Byte := BitVec 8

end Sys2Proof
end

