-- ==== Sys2Proof/Config.lean ====
section
/-! DEFINITION. The engine kinds, the implementation parameters of R7 and R8 (00_scope.md), and their values in the
reset state: opaque constants, so that nothing can be proved of a value that R7 leaves OPEN. -/

namespace Sys2Proof

/-- The two engine kinds (R1, R21). -/
inductive EngineKind where
  | dh   -- double-hash bit-probe selector, KIND 0x01
  | bw   -- blocked-word selector and mixer, KIND 0x02
deriving DecidableEq, Repr

/-- `INSTANCES`: a non-empty set of engine kinds (R3, R7). -/
inductive Instances where
  | dhOnly
  | bwOnly
  | both
deriving DecidableEq, Repr

/-- The three hash parameters of R8. -/
inductive HashFamily where
  | dhH1
  | dhH2
  | bwH
deriving DecidableEq, Repr

/-- One known value of a hash parameter: `family(seed, key) = digest`. -/
structure Digest where
  family : HashFamily
  seed   : Word
  key    : List Byte
  digest : Word
deriving DecidableEq, Repr

/-- The BW mixer constants `GOLDEN`, `MIX_S1..3`, `MIX_M1..2` (R7, D12). -/
structure MixParams where
  golden : Word
  s1     : Nat
  s2     : Nat
  s3     : Nat
  m1     : Word
  m2     : Word
deriving DecidableEq, Repr

/-- The default instantiation of D12. PRESUMED: from general knowledge, as R7 marks it; no definition of the machine
uses it, only tests and statements that name it. -/
def MixParams.splitMix64 : MixParams :=
  { golden := 0x9E3779B97F4A7C15#64, s1 := 30, s2 := 27, s3 := 31,
    m1 := 0xBF58476D1CE4E5B9#64, m2 := 0x94D049BB133111EB#64 }

/-- R7: odd increment and multipliers, shift distances in 1..63. -/
abbrev MixParams.wf (c : MixParams) : Prop :=
  c.golden.toNat % 2 = 1 ∧ c.m1.toNat % 2 = 1 ∧ c.m2.toNat % 2 = 1 ∧
  (1 ≤ c.s1 ∧ c.s1 ≤ 63) ∧ (1 ≤ c.s2 ∧ c.s2 ≤ 63) ∧ (1 ≤ c.s3 ∧ c.s3 ≤ 63)

/-- The parameters of one engine as an argument of the model (R7, R46). -/
structure Params where
  keybufBytes    : Nat             -- KEYBUF_BYTES
  maxDhBits      : Nat             -- MAX_DH_BITS
  maxBwWords     : Nat             -- MAX_BW_WORDS
  maxK           : Nat             -- MAX_K
  digestSigned   : Bool            -- DH_DIGEST_SIGNED
  mix            : MixParams       -- GOLDEN, MIX_S1..3, MIX_M1..2
  engineBase     : Nat             -- ENGINE_BASE
  rawWindowBytes : Nat             -- RAW_WINDOW_BYTES
  digests        : List Digest     -- known values of the hash parameters (log 3)
deriving DecidableEq, Repr

/-- The largest storage byte count an engine of the kind supports (R7, `RAW_WINDOW_BYTES`; R36). -/
def Params.storageBytes (p : Params) : EngineKind → Nat
  | .dh => (p.maxDhBits - 1) / 8 + 1
  | .bw => p.maxBwWords * 8

/-- The ranges R7 gives the parameters. -/
abbrev Params.wf (p : Params) (e : EngineKind) : Prop :=
  (1 ≤ p.keybufBytes ∧ p.keybufBytes ≤ 4096) ∧
  (1 ≤ p.maxDhBits ∧ p.maxDhBits ≤ 2 ^ 63 - 1) ∧
  (∃ n, n ≤ 57 ∧ p.maxBwWords = 2 ^ n) ∧
  (1 ≤ p.maxK ∧ p.maxK ≤ 2 ^ 63 - 1) ∧
  p.mix.wf ∧ p.storageBytes e ≤ p.rawWindowBytes

namespace Config

/-- `DH_H1(seed, key)`, OPEN (R7, R8). -/
opaque hashDhH1 : Word → List Byte → Word
/-- `DH_H2(seed, key)`, OPEN (R7, R8). -/
opaque hashDhH2 : Word → List Byte → Word
/-- `BW_H(seed, key)`, OPEN (R7, R8). -/
opaque hashBwH : Word → List Byte → Word

opaque keybufBytesLessOne : EngineKind → BitVec 12
opaque maxDhBits : EngineKind → BitVec 63
opaque maxBwWordsLog : EngineKind → Fin 58
opaque maxK : EngineKind → BitVec 63
opaque goldenHigh : EngineKind → BitVec 63
opaque mixS1LessOne : EngineKind → Fin 63
opaque mixS2LessOne : EngineKind → Fin 63
opaque mixS3LessOne : EngineKind → Fin 63
opaque mixM1High : EngineKind → BitVec 63
opaque mixM2High : EngineKind → BitVec 63
opaque engineBase : EngineKind → Nat
opaque rawWindowExtra : EngineKind → Nat

/-- A hash parameter where no known value is listed: a pure function of seed and key of which nothing is assumed (R8). -/
def openHash : HashFamily → Word → List Byte → Word
  | .dhH1 => hashDhH1
  | .dhH2 => hashDhH2
  | .bwH  => hashBwH

def mix (e : EngineKind) : MixParams :=
  { golden := goldenHigh e ++ 1#1, m1 := mixM1High e ++ 1#1, m2 := mixM2High e ++ 1#1,
    s1 := (mixS1LessOne e).val + 1, s2 := (mixS2LessOne e).val + 1, s3 := (mixS3LessOne e).val + 1 }

/-- The parameters of the engine of kind `e` in the reset state: every value of R7's ranges is possible and none is
chosen, but for `DH_DIGEST_SIGNED`, which R7 gives as false (D6). -/
def params (e : EngineKind) : Params :=
  let p : Params :=
    { keybufBytes := (keybufBytesLessOne e).toNat + 1
      maxDhBits := max 1 (maxDhBits e).toNat
      maxBwWords := 2 ^ (maxBwWordsLog e).val
      maxK := max 1 (maxK e).toNat
      digestSigned := false
      mix := mix e
      engineBase := engineBase e
      rawWindowBytes := 0
      digests := [] }
  { p with rawWindowBytes := rawWindowExtra e + p.storageBytes e }

end Config

end Sys2Proof
end

