-- ==== Sys2Proof/Syntax.lean ====
section
/-! DEFINITION. What the host can send an engine (spec 20_memory.md R53–R57, 30_encoding.md R70–R80, 70_reset_and_hazards.md
R217): raw bus accesses and reset; the instructions, one constructor per row of spec/opcode_table.json; and the accesses
the spec gives a meaning that are no row of the table. -/

namespace Sys2Proof

/-- The access sizes of the key-buffer and raw windows: 1, 2, 4, 8 bytes (R56, R57). -/
inductive AccessSize where
  | b1 | b2 | b4 | b8
deriving DecidableEq, Repr

def AccessSize.bytes : AccessSize → Nat
  | .b1 => 1
  | .b2 => 2
  | .b4 => 4
  | .b8 => 8

/-- The named registers of the register page (10_state.md section 2). -/
inductive Reg where
  | id | cmd | status | sizeBits | numHashes | seed1 | seed2 | keyLen | keyCount
  | capacityBits | kEff | rawBytes | blockBits
deriving DecidableEq, Repr

/-- One host bus access at a byte offset of an engine's window: (offset, width in bytes, data) as R79 encodes it.
Offsets and widths are as the bus presents them, legal or not. -/
inductive BusAccess where
  | read  (engine : EngineKind) (offset width : Nat)
  | write (engine : EngineKind) (offset width : Nat) (value : Word)
deriving DecidableEq, Repr

def BusAccess.engine : BusAccess → EngineKind
  | .read e _ _ => e
  | .write e _ _ _ => e

def BusAccess.offset : BusAccess → Nat
  | .read _ o _ => o
  | .write _ o _ _ => o

/-- What the host side does to an engine (R217): a bus access, or the reset input (R210). -/
inductive HostEvent where
  | access (a : BusAccess)
  | reset (engine : EngineKind)
deriving DecidableEq, Repr

/-- The instructions: one constructor per row of spec/opcode_table.json. A command's row names the engine kind; the
other rows apply to either engine, named by their first operand. -/
inductive Instr where
  | dhConfigure
  | dhInsert
  | dhContains
  | dhBulkInsert
  | bwConfigure
  | bwInsert
  | bwContains
  | bwBulkInsert
  | writeSizeBits (engine : EngineKind) (value : Word)
  | writeNumHashes (engine : EngineKind) (value : Word)
  | writeSeed1 (engine : EngineKind) (value : Word)
  | writeSeed2 (engine : EngineKind) (value : Word)
  | writeKeyLen (engine : EngineKind) (value : Word)
  | writeKeyCount (engine : EngineKind) (value : Word)
  | writeKeyBuf (engine : EngineKind) (index : Nat) (size : AccessSize) (value : Word)
  | readId (engine : EngineKind)
  | readStatus (engine : EngineKind)
  | readCapacityBits (engine : EngineKind)
  | readKEff (engine : EngineKind)
  | readRawBytes (engine : EngineKind)
  | readBlockBits (engine : EngineKind)
  | readRaw (engine : EngineKind) (addr : Nat) (size : AccessSize)
deriving DecidableEq, Repr

/-- The accesses of a window that are no row of the opcode table, each with the meaning the spec gives it. -/
inductive OtherAccess where
  | illegalCommand (engine : EngineKind)              -- R71, R74, R193
  | readRegister (engine : EngineKind) (reg : Reg)    -- an RW register or CMD, R55
  | readKeyBuf (engine : EngineKind) (index : Nat) (size : AccessSize)   -- R56
  | readZero (engine : EngineKind)                    -- reserved offsets, R38, R57
  | ignoreWrite (engine : EngineKind)                 -- RO, reserved and raw-window offsets, R55, R57, R175
  | busError (engine : EngineKind)                    -- misaligned or wrong width, R54, R56, R57, R199
deriving DecidableEq, Repr

end Sys2Proof
end

