-- ==== Sys2Proof/WellFormed.lean ====
section
/-! DEFINITION. Which instructions have an encoding: the operand ranges of the rows of spec/opcode_table.json
(43_accessors.md R171, R174; 20_memory.md R56, R57). The commands and the register rows admit every operand. -/

namespace Sys2Proof

/-- R171 and the WRITE_KEYBUF row: index in 0 .. 0xFFF, a multiple of the size, and a value of `size` bytes. R174: the raw
address is a multiple of the size. -/
def Instr.wf : Instr → Bool
  | .dhConfigure | .dhInsert | .dhContains | .dhBulkInsert => true
  | .bwConfigure | .bwInsert | .bwContains | .bwBulkInsert => true
  | .writeSizeBits _ _ | .writeNumHashes _ _ | .writeSeed1 _ _ | .writeSeed2 _ _ => true
  | .writeKeyLen _ _ | .writeKeyCount _ _ => true
  | .writeKeyBuf _ i n v => decide (i < 0x1000) && decide (i % n.bytes = 0) && decide (v.toNat < 2 ^ (8 * n.bytes))
  | .readId _ | .readStatus _ | .readCapacityBits _ | .readKEff _ | .readRawBytes _ | .readBlockBits _ => true
  | .readRaw _ a n => decide (a % n.bytes = 0)

end Sys2Proof
end

