-- ==== Sys2Proof/Decode.lean ====
section
/-! DEFINITION. Decoding a host bus access (20_memory.md R53–R57; 30_encoding.md R70–R75, R78, R79) and the encoder written
from the same tables. Decoding is total: an access that is no row of the opcode table is rejected by the name of what the
spec says it is. -/

namespace Sys2Proof

/-- The offsets of the register page (10_state.md section 2). -/
def Reg.offset : Reg → Nat
  | .id => 0x000
  | .cmd => 0x008
  | .status => 0x010
  | .sizeBits => 0x018
  | .numHashes => 0x020
  | .seed1 => 0x028
  | .seed2 => 0x030
  | .keyLen => 0x038
  | .keyCount => 0x040
  | .capacityBits => 0x048
  | .kEff => 0x050
  | .rawBytes => 0x058
  | .blockBits => 0x060

def Reg.all : List Reg :=
  [.id, .cmd, .status, .sizeBits, .numHashes, .seed1, .seed2, .keyLen, .keyCount, .capacityBits, .kEff, .rawBytes,
   .blockBits]

/-- The register at an offset of the register page; `none` at a reserved offset (R38). -/
def regAt (offset : Nat) : Option Reg := Reg.all.find? fun r => r.offset == offset

/-- The command opcodes of R72. -/
inductive CommandOp where
  | configure | insert | contains | bulkInsert
deriving DecidableEq, Repr

def CommandOp.code : CommandOp → Word
  | .configure => 0x1
  | .insert => 0x2
  | .contains => 0x3
  | .bulkInsert => 0x4

/-- R71, R72, R74: bits [63:4] of the word must be 0 and bits [3:0] one of the four opcodes. -/
def commandOp (w : Word) : Option CommandOp :=
  if w.extractLsb' 4 60 = 0#60 then
    if w.extractLsb' 0 4 = 0x1#4 then some .configure
    else if w.extractLsb' 0 4 = 0x2#4 then some .insert
    else if w.extractLsb' 0 4 = 0x3#4 then some .contains
    else if w.extractLsb' 0 4 = 0x4#4 then some .bulkInsert
    else none
  else none

/-- R71: the instance's kind selects the row of a command. -/
def commandInstr : EngineKind → CommandOp → Instr
  | .dh, .configure => .dhConfigure
  | .dh, .insert => .dhInsert
  | .dh, .contains => .dhContains
  | .dh, .bulkInsert => .dhBulkInsert
  | .bw, .configure => .bwConfigure
  | .bw, .insert => .bwInsert
  | .bw, .contains => .bwContains
  | .bw, .bulkInsert => .bwBulkInsert

def decodeCommand (e : EngineKind) (w : Word) : Except OtherAccess Instr :=
  match commandOp w with
  | some op => .ok (commandInstr e op)
  | none => .error (.illegalCommand e)

/-- The low `8 * width` bits of a write's value: the bytes that a write of `width` bytes carries. -/
def lowBytes (width : Nat) (v : Word) : Word := BitVec.ofNat 64 (v.toNat % 2 ^ (8 * width))

def accessSize : Nat → Option AccessSize
  | 1 => some .b1
  | 2 => some .b2
  | 4 => some .b4
  | 8 => some .b8
  | _ => none

/-- R56, R57: an access of 1, 2, 4 or 8 bytes at an offset aligned to its size. -/
def alignedSize (offset width : Nat) : Option AccessSize :=
  match accessSize width with
  | some n => if offset % n.bytes = 0 then some n else none
  | none => none

/-- R54: register-page accesses are 8 bytes wide and 8-byte aligned. -/
def registerAccess (offset width : Nat) : Bool := width == 8 && offset % 8 == 0

/-- An aligned 64-bit write to the register page (R55). -/
def decodeRegWrite (e : EngineKind) (v : Word) : Option Reg → Except OtherAccess Instr
  | some .cmd => decodeCommand e v
  | some .sizeBits => .ok (.writeSizeBits e v)
  | some .numHashes => .ok (.writeNumHashes e v)
  | some .seed1 => .ok (.writeSeed1 e v)
  | some .seed2 => .ok (.writeSeed2 e v)
  | some .keyLen => .ok (.writeKeyLen e v)
  | some .keyCount => .ok (.writeKeyCount e v)
  | some .id | some .status | some .capacityBits | some .kEff | some .rawBytes | some .blockBits => .error (.ignoreWrite e)
  | none => .error (.ignoreWrite e)

/-- An aligned 64-bit read of the register page (R55, R78). -/
def decodeRegRead (e : EngineKind) : Option Reg → Except OtherAccess Instr
  | some .id => .ok (.readId e)
  | some .status => .ok (.readStatus e)
  | some .capacityBits => .ok (.readCapacityBits e)
  | some .kEff => .ok (.readKEff e)
  | some .rawBytes => .ok (.readRawBytes e)
  | some .blockBits => .ok (.readBlockBits e)
  | some .cmd => .error (.readRegister e .cmd)
  | some .sizeBits => .error (.readRegister e .sizeBits)
  | some .numHashes => .error (.readRegister e .numHashes)
  | some .seed1 => .error (.readRegister e .seed1)
  | some .seed2 => .error (.readRegister e .seed2)
  | some .keyLen => .error (.readRegister e .keyLen)
  | some .keyCount => .error (.readRegister e .keyCount)
  | none => .error (.readZero e)

def decodeWrite (e : EngineKind) (offset width : Nat) (v : Word) : Except OtherAccess Instr :=
  if offset < 0x1000 then
    if registerAccess offset width then decodeRegWrite e v (regAt offset) else .error (.busError e)
  else
    match alignedSize offset width with
    | none => .error (.busError e)
    | some n =>
      if offset < 0x2000 then .ok (.writeKeyBuf e (offset - 0x1000) n (lowBytes n.bytes v)) else .error (.ignoreWrite e)

def decodeRead (e : EngineKind) (offset width : Nat) : Except OtherAccess Instr :=
  if offset < 0x1000 then
    if registerAccess offset width then decodeRegRead e (regAt offset) else .error (.busError e)
  else
    match alignedSize offset width with
    | none => .error (.busError e)
    | some n =>
      if offset < 0x2000 then .error (.readKeyBuf e (offset - 0x1000) n)
      else if offset < 0x10000 then .error (.readZero e)
      else .ok (.readRaw e (offset - 0x10000) n)

/-- The instruction an access stands for, or what else the spec says the access is. Whether the offset lies in the window at
all depends on `RAW_WINDOW_BYTES` and is step's check, not the decoder's. -/
def decode : BusAccess → Except OtherAccess Instr
  | .read e offset width => decodeRead e offset width
  | .write e offset width v => decodeWrite e offset width v

/-- The access that carries an instruction (R79; the rows of spec/opcode_table.json). -/
def encode : Instr → BusAccess
  | .dhConfigure => .write .dh 0x008 8 0x0000000000000001#64
  | .dhInsert => .write .dh 0x008 8 0x0000000000000002#64
  | .dhContains => .write .dh 0x008 8 0x0000000000000003#64
  | .dhBulkInsert => .write .dh 0x008 8 0x0000000000000004#64
  | .bwConfigure => .write .bw 0x008 8 0x0000000000000001#64
  | .bwInsert => .write .bw 0x008 8 0x0000000000000002#64
  | .bwContains => .write .bw 0x008 8 0x0000000000000003#64
  | .bwBulkInsert => .write .bw 0x008 8 0x0000000000000004#64
  | .writeSizeBits e v => .write e 0x018 8 v
  | .writeNumHashes e v => .write e 0x020 8 v
  | .writeSeed1 e v => .write e 0x028 8 v
  | .writeSeed2 e v => .write e 0x030 8 v
  | .writeKeyLen e v => .write e 0x038 8 v
  | .writeKeyCount e v => .write e 0x040 8 v
  | .writeKeyBuf e i n v => .write e (0x1000 + i) n.bytes v
  | .readId e => .read e 0x000 8
  | .readStatus e => .read e 0x010 8
  | .readCapacityBits e => .read e 0x048 8
  | .readKEff e => .read e 0x050 8
  | .readRawBytes e => .read e 0x058 8
  | .readBlockBits e => .read e 0x060 8
  | .readRaw e a n => .read e (0x10000 + a) n.bytes

/-- The access with only the bytes it carries: a write's value without the bits above its width. -/
def BusAccess.carried : BusAccess → BusAccess
  | .read e o n => .read e o n
  | .write e o n v => .write e o n (lowBytes n v)

/-- The access that a row's number of spec/opcode_table.json stands for (log 12). The mmio rows match on the window offset, the
cmd64 rows on the word written to CMD: a number that is an mmio row's offset is that row's access (width 8 on the register
page, 1 in the two windows; data 0), any other number is a 64-bit write of it to CMD. The DH and BW rows of a command have
the same word (R71), and this access goes to the DH instance. -/
def tableAccess (_nbits w : Nat) : BusAccess :=
  if w < 0x1000 then
    match regAt w with
    | some .id | some .status | some .capacityBits | some .kEff | some .rawBytes | some .blockBits => .read .dh w 8
    | some .sizeBits | some .numHashes | some .seed1 | some .seed2 | some .keyLen | some .keyCount => .write .dh w 8 0#64
    | some .cmd | none => .write .dh 0x008 8 (BitVec.ofNat 64 w)
  else if w < 0x2000 then .write .dh w 1 0#64
  else if w < 0x10000 then .write .dh 0x008 8 (BitVec.ofNat 64 w)
  else .read .dh w 1

/-- The instruction the decoder reads from a row's number of spec/opcode_table.json; `none` where it refuses. -/
def decodeTableWord (nbits w : Nat) : Option Instr :=
  match decode (tableAccess nbits w) with
  | .ok i => some i
  | .error _ => none

end Sys2Proof
end

