-- ==== Sys2Proof/Machine/State.lean ====
section
/-! DEFINITION. The state of the engine pair as plain data (spec 10_state.md R33, R39, R40, R46), the reasons a step can stop,
and the state after reset (R45). -/

namespace Sys2Proof.Machine

/-- A byte memory in canonical form: addresses strictly rising, no entry 0, an unlisted address reads 0 (R45; log 15). -/
abbrev Memory := List Host.Cell

/-- The outcome codes of `STATUS.ERR` (R26). Codes 7–15 are never produced and have no constructor (log 13). -/
inductive ErrCode where
  | ok
  | invalidConfiguration
  | capacityExceeded
  | notConfigured
  | keyTooLong
  | keyFormat
  | illegalCommand
deriving DecidableEq, Repr

/-- The latched configuration (R33). -/
structure Cfg where
  m  : Word       -- capacity in bits
  k  : Word       -- num_hashes
  s1 : Word       -- seed1 (DH), seed (BW)
  s2 : Word       -- seed2 (DH), 0 (BW)
  wc : Word       -- word count (BW), 0 (DH)
  bb : BitVec 7   -- block_bits (BW), 0 (DH)
  rb : Word       -- raw byte count
deriving DecidableEq, Repr

/-- Every field 0, as at reset (R33, R45). -/
def Cfg.zero : Cfg := { m := 0, k := 0, s1 := 0, s2 := 0, wc := 0, bb := 0, rb := 0 }

/-- The complete state of one engine instance (R46), with the parameters the model takes for it. -/
structure Engine where
  params     : Params
  sizeBits   : Word
  numHashes  : Word
  seed1      : Word
  seed2      : Word       -- DH only; on BW the register is RAZ/WI (R30)
  keyLen     : Word
  keyCount   : Word
  configured : Bool       -- STATUS.CONFIGURED
  result     : Bool       -- STATUS.RESULT
  err        : ErrCode    -- STATUS.ERR
  cfg        : Cfg
  keyBuf     : Memory     -- KeyBuf, by index
  storage    : Memory     -- the storage space of R50, by byte address
deriving DecidableEq, Repr

/-- An engine after reset: R45's table. -/
def Engine.atReset (p : Params) : Engine :=
  { params := p
    sizeBits := 0, numHashes := 0, seed1 := 0, seed2 := 0, keyLen := 0, keyCount := 0
    configured := false, result := false, err := .ok
    cfg := Cfg.zero, keyBuf := [], storage := [] }

/-- What the port answers a host access (R199, R217). -/
inductive Response where
  | done                  -- a write has completed (a command, after the command)
  | value (v : Word)      -- a read's value, zero-extended from the access's width
  | busError              -- the interconnect's error response (R199)
deriving DecidableEq, Repr

/-- The machine: the two instances, the host events not yet performed (oldest first) and the answers given (newest
first). `instances`, `port` and `responses` are the model's own fields (log 1, 4, 7). -/
structure State where
  instances : Instances
  dh        : Engine
  bw        : Engine
  port      : List HostEvent
  responses : List Response
deriving DecidableEq, Repr

/-- Why a step stops. Both are host events that reach no engine, so no spec behaviour is cut off (log 8). -/
inductive Fault where
  /-- Raised by step's fetch for an access whose offset is in no region of the window (R53). Safe. -/
  | outsideWindow
  /-- Raised by step's fetch for an event addressed to an engine kind that INSTANCES does not hold (R3). Safe. -/
  | absentEngine
deriving DecidableEq, Repr

/-- Why an instruction has no meaning. -/
inductive Refusal where
  /-- Raised by exec's arm of an instruction that has no meaning yet: none in this model. Safe. -/
  | notModelled (mnemonic : String)
deriving DecidableEq, Repr

/-- The machine right after reset (R45, R210), both instances present, no host event delivered and none answered. -/
def State.reset : State :=
  { instances := .both
    dh := Engine.atReset (Config.params .dh)
    bw := Engine.atReset (Config.params .bw)
    port := []
    responses := [] }

end Sys2Proof.Machine
end

