-- ==== Sys2Proof/Machine/Ops.lean ====
section
/-! DEFINITION. The named operations over memory, registers and the port that every meaning is written with: byte memories and
their little-endian accesses (20_memory.md R50–R52, R58), the hash parameters (R8), raising a command error
(60_exceptions.md R190–R192), reset (70_reset_and_hazards.md R210). -/

namespace Sys2Proof.Machine

/-! ### Byte memories -/

/-- One byte; 0 where nothing is listed. -/
def Memory.read (m : Memory) (a : Nat) : Byte :=
  match m with
  | [] => 0#8
  | (b, v) :: rest => if b = a then v else Memory.read rest a

/-- Store one byte, keeping the canonical form: a 0 removes the entry. -/
def Memory.write (m : Memory) (a : Nat) (v : Byte) : Memory :=
  match m with
  | [] => if v = 0#8 then [] else [(a, v)]
  | (b, w) :: rest =>
    if a < b then (if v = 0#8 then (b, w) :: rest else (a, v) :: (b, w) :: rest)
    else if a = b then (if v = 0#8 then rest else (a, v) :: rest)
    else (b, w) :: Memory.write rest a v

/-- The canonical form above a bound: addresses strictly rising from `lo`, no entry 0. -/
def Memory.wfFrom (m : Memory) (lo : Nat) : Bool :=
  match m with
  | [] => true
  | (b, v) :: rest => decide (lo ≤ b) && decide (v ≠ 0#8) && Memory.wfFrom rest (b + 1)

/-- The canonical form of a memory. -/
def Memory.wf (m : Memory) : Bool := Memory.wfFrom m 0

/-- Byte `j` of a word: `v[8j+7 : 8j]` (R9). -/
def byteOf (v : Word) (j : Nat) : Byte := v.extractLsb' (8 * j) 8

/-- `Σ_{j<n} byte(a+j) · 2^(8j)` (R50, R56, R174). -/
def littleEndian (f : Nat → Byte) (a : Nat) : Nat → Nat
  | 0 => 0
  | n + 1 => (f a).toNat + 256 * littleEndian f (a + 1) n

/-- `MemRead(a, n)` (R50). -/
def memRead (m : Memory) (a n : Nat) : Word := BitVec.ofNat 64 (littleEndian m.read a n)

/-- `MemWrite(a, n, v)` (R50). -/
def memWrite (m : Memory) (a n : Nat) (v : Word) : Memory :=
  (List.range n).foldl (fun m j => m.write (a + j) (byteOf v j)) m

/-! ### The instances -/

def hasEngine : Instances → EngineKind → Bool
  | .dhOnly, .dh => true
  | .dhOnly, .bw => false
  | .bwOnly, .dh => false
  | .bwOnly, .bw => true
  | .both, _ => true

def State.engine (s : State) : EngineKind → Engine
  | .dh => s.dh
  | .bw => s.bw

def State.setEngine (s : State) (e : EngineKind) (x : Engine) : State :=
  match e with
  | .dh => { s with dh := x }
  | .bw => { s with bw := x }

/-- The port answers the access being performed. -/
def State.respond (s : State) (r : Response) : State := { s with responses := r :: s.responses }

/-- Let an engine perform a write or a command and answer completion (R217). -/
def State.perform (s : State) (e : EngineKind) (f : Engine → Engine) : State :=
  (s.setEngine e (f (s.engine e))).respond .done

/-- Answer a read; nothing else changes (R55, R59). -/
def State.answer (s : State) (v : Word) : State := s.respond (.value v)

/-! ### The hash parameters -/

/-- `family(seed, key)`: the known value where one is listed, else the opaque function (R8; log 3). -/
def hashOf (p : Params) (f : HashFamily) (seed : Word) (key : List Byte) : Word :=
  match p.digests.find? (fun d => d.family == f && d.seed == seed && d.key == key) with
  | some d => d.digest
  | none => Config.openHash f seed key

/-! ### Command errors: the only exceptions of an engine -/

/-- `raise Error(code)` (R190, R191): the command ends, `STATUS.ERR` takes the code, nothing else changes. No trap exists, so
nothing is saved and nothing returns (R201). -/
def Engine.raise (x : Engine) (c : ErrCode) : Engine := { x with err := c }

/-- A key command ends with `ERR = OK` and its storage (R113, R146). -/
def Engine.inserted (x : Engine) (storage : Memory) : Engine := { x with storage := storage, err := .ok }

/-- What a successful CONFIGURE leaves: the latched configuration, all-zero storage, `STATUS` = 0x01 (R93, R97, R98). -/
def Engine.latch (x : Engine) (c : Cfg) : Engine :=
  { x with cfg := c, storage := [], configured := true, result := false, err := .ok }

/-! ### Reset -/

/-- The reset input of one instance: every piece of its state takes R45's value (R210). -/
def Engine.reset (x : Engine) : Engine := Engine.atReset x.params

/-! ### The window -/

/-- Whether an offset lies in one of R53's regions. -/
def Engine.inWindow (x : Engine) (offset : Nat) : Bool :=
  decide (offset < 0x10000) || decide (offset - 0x10000 < x.params.rawWindowBytes)

/-- The platform's address of a window offset: `ENGINE_BASE + offset` (R53, R170; log 18). -/
def Engine.platformAddress (x : Engine) (offset : Nat) : Nat := x.params.engineBase + offset

end Sys2Proof.Machine
end

