-- ==== Sys2Proof/Machine/Flags.lean ====
section
/-! DEFINITION. The flags of an engine are the fields of `STATUS` (10_state.md R23–R26, R43); the register page as the host reads
and writes it (R21–R38, R55). -/

namespace Sys2Proof.Machine

/-- The 4-bit code of an outcome (R26). -/
def ErrCode.code : ErrCode → BitVec 4
  | .ok => 0
  | .invalidConfiguration => 1
  | .capacityExceeded => 2
  | .notConfigured => 3
  | .keyTooLong => 4
  | .keyFormat => 5
  | .illegalCommand => 6

/-- `STATUS`: `CONFIGURED` in [0], `RESULT` in [1], `ERR` in [7:4], the other bits 0 (R23). -/
def Engine.status (x : Engine) : Word :=
  (0#56 ++ x.err.code ++ 0#2 ++ BitVec.ofBool x.result ++ BitVec.ofBool x.configured)

/-- `KIND` (R21). -/
def kindCode : EngineKind → Word
  | .dh => 0x01
  | .bw => 0x02

/-- The value a read of a register returns (R55), by R21–R37. -/
def Engine.readReg (e : EngineKind) (x : Engine) : Reg → Word
  | .id => kindCode e
  | .cmd => 0
  | .status => x.status
  | .sizeBits => x.sizeBits
  | .numHashes => x.numHashes
  | .seed1 => x.seed1
  | .seed2 => match e with
    | .dh => x.seed2
    | .bw => 0
  | .keyLen => x.keyLen
  | .keyCount => x.keyCount
  | .capacityBits => x.cfg.m
  | .kEff => x.cfg.k
  | .rawBytes => x.cfg.rb
  | .blockBits => match e with
    | .dh => 0
    | .bw => x.cfg.bb.setWidth 64

/-- `SEED2` is RAZ/WI on BW (R30, R170). -/
def Engine.setSeed2 (e : EngineKind) (v : Word) (x : Engine) : Engine :=
  match e with
  | .dh => { x with seed2 := v }
  | .bw => x

/-- CONTAINS writes `RESULT` before it raises (R114, R147, R191). -/
def Engine.setResult (x : Engine) (r : Bool) : Engine := { x with result := r }

end Sys2Proof.Machine
end

