-- ==== Sys2Proof/Machine/Operands.lean ====
section
/-! DEFINITION. The operands of the commands and accesses, read when the command executes (30_encoding.md R73, R76, R77;
20_memory.md R56; 43_accessors.md R171, R174). -/

namespace Sys2Proof.Machine

/-- `size_bits = sint64(reg.SIZE_BITS)` (R27, R73). -/
def Engine.sizeBitsArg (x : Engine) : Int := x.sizeBits.toInt

/-- `num_hashes = sint64(reg.NUM_HASHES)` (R28, R73). -/
def Engine.numHashesArg (x : Engine) : Int := x.numHashes.toInt

/-- The bytes `KeyBuf[o .. o+n-1]`. -/
def Engine.keyBytes (x : Engine) (o n : Nat) : List Byte := (List.range n).map fun i => x.keyBuf.read (o + i)

/-- The key of INSERT and CONTAINS: `KeyBuf[0 .. KEY_LEN-1]` (R39, R76). -/
def Engine.key (x : Engine) : List Byte := x.keyBytes 0 x.keyLen.toNat

/-- The checks every key command makes first, in R198's order: `NOT_CONFIGURED` (R194), then `KEY_TOO_LONG` (R195). -/
def Engine.keyCommandError (x : Engine) : Option ErrCode :=
  if x.configured = false then some .notConfigured
  else if x.params.keybufBytes < x.keyLen.toNat then some .keyTooLong
  else none

/-- The loop of `ParseRecords` (R77): `count` records from offset `o` of a list of `len` bytes; `none` is `KEY_FORMAT`. -/
def Engine.parseFrom (x : Engine) (len : Nat) : Nat → Nat → Option (List (List Byte))
  | 0, _ => some []
  | count + 1, o =>
    if len < o + 2 then none
    else
      let l := (x.keyBuf.read o).toNat + 256 * (x.keyBuf.read (o + 1)).toNat
      if len < o + 2 + l then none
      else (x.parseFrom len count (o + 2 + l)).map fun keys => x.keyBytes (o + 2) l :: keys

/-- The record list of BULK_INSERT (R77): `KEY_COUNT` records in `KeyBuf[0 .. KEY_LEN-1]`. -/
def Engine.records (x : Engine) : Option (List (List Byte)) := x.parseFrom x.keyLen.toNat x.keyCount.toNat 0

/-- `KeyBuf[i+j] <- v[8j+7:8j]`, dropped at and beyond a buffer of `size` bytes (R56, R171). -/
def storeKeyByte (size i : Nat) (v : Word) (m : Memory) (j : Nat) : Memory :=
  if i + j < size then m.write (i + j) (byteOf v j) else m

/-- A host write of `n` bytes to the key buffer at index `i` (R56, R171). -/
def Engine.writeKey (x : Engine) (i n : Nat) (v : Word) : Engine :=
  { x with keyBuf := (List.range n).foldl (storeKeyByte x.params.keybufBytes i v) x.keyBuf }

/-- A byte of the key-buffer window: 0 at and beyond `KEYBUF_BYTES` (R56). -/
def Engine.keyByte (x : Engine) (i : Nat) : Byte := if i < x.params.keybufBytes then x.keyBuf.read i else 0

/-- A host read of the key buffer (R56). -/
def Engine.readKey (x : Engine) (i n : Nat) : Word := BitVec.ofNat 64 (littleEndian x.keyByte i n)

/-- `RawByte(x)`: the storage byte below `cfg.RB`, else 0 (R174). -/
def Engine.rawByte (x : Engine) (a : Nat) : Byte := if a < x.cfg.rb.toNat then x.storage.read a else 0

/-- `READ_RAW(a, n)` (R174). -/
def Engine.readRaw (x : Engine) (a n : Nat) : Word := BitVec.ofNat 64 (littleEndian x.rawByte a n)

end Sys2Proof.Machine
end

