-- ==== Sys2Proof/Machine/Accessors.lean ====
section
/-! DEFINITION. The host accesses: the accessor and set-up rows of the opcode table (spec 43_accessors.md R170–R176) and the accesses
that are no row of it (20_memory.md R54–R57; 60_exceptions.md R193, R199). -/

namespace Sys2Proof.Machine

/-- A write to an RW register stores all 64 bits and changes nothing else (R55, R170). -/
def execWriteSizeBits (e : EngineKind) (v : Word) (s : State) : Host.Outcome State Fault Refusal :=
  .next (s.perform e fun x => { x with sizeBits := v })

/-- WRITE_NUM_HASHES (R170). -/
def execWriteNumHashes (e : EngineKind) (v : Word) (s : State) : Host.Outcome State Fault Refusal :=
  .next (s.perform e fun x => { x with numHashes := v })

/-- WRITE_SEED1 (R170). -/
def execWriteSeed1 (e : EngineKind) (v : Word) (s : State) : Host.Outcome State Fault Refusal :=
  .next (s.perform e fun x => { x with seed1 := v })

/-- WRITE_SEED2 (R170); ignored on BW (R30). -/
def execWriteSeed2 (e : EngineKind) (v : Word) (s : State) : Host.Outcome State Fault Refusal :=
  .next (s.perform e (Engine.setSeed2 e v))

/-- WRITE_KEY_LEN (R170). -/
def execWriteKeyLen (e : EngineKind) (v : Word) (s : State) : Host.Outcome State Fault Refusal :=
  .next (s.perform e fun x => { x with keyLen := v })

/-- WRITE_KEY_COUNT (R170). -/
def execWriteKeyCount (e : EngineKind) (v : Word) (s : State) : Host.Outcome State Fault Refusal :=
  .next (s.perform e fun x => { x with keyCount := v })

/-- WRITE_KEYBUF (R171); a misaligned index gets a bus error (R56). -/
def execWriteKeyBuf (e : EngineKind) (i : Nat) (n : AccessSize) (v : Word) (s : State) :
    Host.Outcome State Fault Refusal :=
  .next (if i % n.bytes = 0 then s.perform e (fun x => x.writeKey i n.bytes v) else s.respond .busError)

/-- READ_ID (R176, R21). -/
def execReadId (e : EngineKind) (s : State) : Host.Outcome State Fault Refusal :=
  .next (s.answer ((s.engine e).readReg e .id))

/-- READ_STATUS (R176, R23). -/
def execReadStatus (e : EngineKind) (s : State) : Host.Outcome State Fault Refusal :=
  .next (s.answer ((s.engine e).readReg e .status))

/-- READ_CAPACITY_BITS (R172). -/
def execReadCapacityBits (e : EngineKind) (s : State) : Host.Outcome State Fault Refusal :=
  .next (s.answer ((s.engine e).readReg e .capacityBits))

/-- READ_K_EFF (R173). -/
def execReadKEff (e : EngineKind) (s : State) : Host.Outcome State Fault Refusal :=
  .next (s.answer ((s.engine e).readReg e .kEff))

/-- READ_RAW_BYTES (R176, R36). -/
def execReadRawBytes (e : EngineKind) (s : State) : Host.Outcome State Fault Refusal :=
  .next (s.answer ((s.engine e).readReg e .rawBytes))

/-- READ_BLOCK_BITS (R176, R37). -/
def execReadBlockBits (e : EngineKind) (s : State) : Host.Outcome State Fault Refusal :=
  .next (s.answer ((s.engine e).readReg e .blockBits))

/-- READ_RAW (R174); a misaligned address gets a bus error (R57). -/
def execReadRaw (e : EngineKind) (a : Nat) (n : AccessSize) (s : State) : Host.Outcome State Fault Refusal :=
  .next (if a % n.bytes = 0 then s.answer ((s.engine e).readRaw a n.bytes) else s.respond .busError)

/-- The accesses that are no row of the opcode table. An illegal command writes only `STATUS.ERR` (R193); a read has no side
effect (R55); an ignored write changes nothing (R55, R57); a bus error changes no engine state (R199). -/
def serve (o : OtherAccess) (s : State) : State :=
  match o with
  | .illegalCommand e => s.perform e fun x => x.raise .illegalCommand
  | .readRegister e r => s.answer ((s.engine e).readReg e r)
  | .readKeyBuf e i n => s.answer ((s.engine e).readKey i n.bytes)
  | .readZero _ => s.answer 0
  | .ignoreWrite _ => s.respond .done
  | .busError _ => s.respond .busError

end Sys2Proof.Machine
end

