-- ==== Sys2Proof/Machine/BlockedWord.lean ====
section
/-! DEFINITION. The blocked-word engine: the word selector and the bit-position mixer as pure functions and the key commands
(spec 42_blocked_word.md R140–R150; 20_memory.md R52). -/

namespace Sys2Proof.Machine

/-- `BWIndex(d, bb)`: the top `bb` bits of the digest, 0 when `bb = 0` (R141). -/
def bwIndex (d : Word) (bb : Nat) : Nat := if bb = 0 then 0 else (d >>> (64 - bb)).toNat

/-- `s_j`: the digest advanced `j` times by `GOLDEN` modulo 2^64; the mixed value is not fed back (R142). -/
def mixState (c : MixParams) (d : Word) : Nat → Word
  | 0 => d
  | j + 1 => mixState c d j + c.golden

/-- `z ^ (z >> S)`: a logical right shift. PRESUMED: the direction is from general knowledge, as R143 marks it (D13). -/
def xorShift (z : Word) (distance : Nat) : Word := z ^^^ (z >>> distance)

/-- `MIX(s)` (R143). -/
def mix (c : MixParams) (s : Word) : Word :=
  xorShift (xorShift (xorShift s c.s1 * c.m1) c.s2 * c.m2) c.s3

/-- `b_j = MIX(s_{j+1})[5:0]` (R144). -/
def bwPosition (c : MixParams) (d : Word) (j : Nat) : Nat := ((mix c (mixState c d (j + 1))).extractLsb' 0 6).toNat

/-- `mask = OR over j < k of (1 << b_j)` (R144). -/
def bwMask (c : MixParams) (d : Word) (k : Nat) : Word :=
  (List.range k).foldl (fun acc j => acc ||| (1#64 <<< bwPosition c d j)) 0#64

/-- `BWWord(w)` (R52). -/
def bwWord (m : Memory) (w : Nat) : Word := memRead m (8 * w) 8

/-- `BWWriteWord(w, v)` (R52). -/
def bwWriteWord (m : Memory) (w : Nat) (v : Word) : Memory := memWrite m (8 * w) 8 v

/-- The digest of a key under the latched seed (R140). -/
def Engine.bwDigest (x : Engine) (key : List Byte) : Word := hashOf x.params .bwH x.cfg.s1 key

/-- The word a key selects (R141). -/
def Engine.bwKeyWord (x : Engine) (key : List Byte) : Nat := bwIndex (x.bwDigest key) x.cfg.bb.toNat

/-- The mask of a key's positions (R144). -/
def Engine.bwKeyMask (x : Engine) (key : List Byte) : Word := bwMask x.params.mix (x.bwDigest key) x.cfg.k.toNat

/-- OR a key's mask into its word: one read-modify-write (R146). -/
def Engine.bwInsertKey (x : Engine) (storage : Memory) (key : List Byte) : Memory :=
  bwWriteWord storage (x.bwKeyWord key) (bwWord storage (x.bwKeyWord key) ||| x.bwKeyMask key)

/-- `(BWWord(w) & mask) == mask` (R147). -/
def Engine.bwHasKey (x : Engine) (key : List Byte) : Bool :=
  (bwWord x.storage (x.bwKeyWord key) &&& x.bwKeyMask key) == x.bwKeyMask key

/-- `BW_INSERT` (R146). -/
def Engine.bwInsert (x : Engine) : Engine :=
  match x.keyCommandError with
  | some c => x.raise c
  | none => x.inserted (x.bwInsertKey x.storage x.key)

/-- `BW_CONTAINS` (R147). -/
def Engine.bwContains (x : Engine) : Engine :=
  match x.keyCommandError with
  | some c => (x.setResult false).raise c
  | none => (x.setResult (x.bwHasKey x.key)).raise .ok

/-- `BW_BULK_INSERT` (R148). -/
def Engine.bwBulkInsert (x : Engine) : Engine :=
  match x.keyCommandError with
  | some c => x.raise c
  | none =>
    match x.records with
    | none => x.raise .keyFormat
    | some keys => x.inserted (keys.foldl x.bwInsertKey x.storage)

/-- BW.INSERT (R146). -/
def execBwInsert (s : State) : Host.Outcome State Fault Refusal := .next (s.perform .bw Engine.bwInsert)

/-- BW.CONTAINS (R147). -/
def execBwContains (s : State) : Host.Outcome State Fault Refusal := .next (s.perform .bw Engine.bwContains)

/-- BW.BULK_INSERT (R148). -/
def execBwBulkInsert (s : State) : Host.Outcome State Fault Refusal := .next (s.perform .bw Engine.bwBulkInsert)

end Sys2Proof.Machine
end

