-- ==== Sys2Proof/Machine/Configure.lean ====
section
/-! DEFINITION. CONFIGURE on both engines (spec 40_configure.md R90–R98). -/

namespace Sys2Proof.Machine

/-- `ceil(n / d)` for `d > 0` (R9). -/
def ceilDiv (n d : Nat) : Nat := (n + d - 1) / d

/-- `block_bits`: the exponent of the least power of two that is at least `n` (R9 `nextpow2`, R95). -/
def blockBits (n : Nat) : Nat := if n ≤ 1 then 0 else Nat.log2 (n - 1) + 1

/-- `nextpow2(n)` (R9). -/
def nextPow2 (n : Nat) : Nat := 2 ^ blockBits n

/-- The configuration DH CONFIGURE latches for `size_bits = m`, `num_hashes = k`: no rounding (R93, R94). -/
def Engine.dhCfg (x : Engine) (m k : Nat) : Cfg :=
  { m := BitVec.ofNat 64 m, k := BitVec.ofNat 64 k, s1 := x.seed1, s2 := x.seed2
    wc := 0, bb := 0, rb := BitVec.ofNat 64 (ceilDiv m 8) }

/-- The configuration BW CONFIGURE latches for `size_bits = s`, `num_hashes = k`: `BWGeometry` (R95, R97). -/
def Engine.bwCfg (x : Engine) (s k : Nat) : Cfg :=
  let wc := nextPow2 (ceilDiv s 64)
  { m := BitVec.ofNat 64 (wc * 64), k := BitVec.ofNat 64 k, s1 := x.seed1, s2 := 0
    wc := BitVec.ofNat 64 wc, bb := BitVec.ofNat 7 (blockBits (ceilDiv s 64)), rb := BitVec.ofNat 64 (wc * 8) }

/-- R90: the source's two conditions, on the signed values. -/
def Engine.invalidArgs (x : Engine) : Bool := decide (x.sizeBitsArg ≤ 0) || decide (x.numHashesArg ≤ 0)

/-- `DH_CONFIGURE` (R93); `INVALID_CONFIGURATION` before `CAPACITY_EXCEEDED` (R91). -/
def Engine.dhConfigure (x : Engine) : Engine :=
  if x.invalidArgs then x.raise .invalidConfiguration
  else if x.params.maxDhBits < x.sizeBitsArg.toNat ∨ x.params.maxK < x.numHashesArg.toNat then x.raise .capacityExceeded
  else x.latch (x.dhCfg x.sizeBitsArg.toNat x.numHashesArg.toNat)

/-- `BW_CONFIGURE` (R97), with the limits of R96. -/
def Engine.bwConfigure (x : Engine) : Engine :=
  if x.invalidArgs then x.raise .invalidConfiguration
  else if x.params.maxBwWords < ceilDiv x.sizeBitsArg.toNat 64 ∨ x.params.maxK < x.numHashesArg.toNat then
    x.raise .capacityExceeded
  else x.latch (x.bwCfg x.sizeBitsArg.toNat x.numHashesArg.toNat)

/-- DH.CONFIGURE (R93). -/
def execDhConfigure (s : State) : Host.Outcome State Fault Refusal := .next (s.perform .dh Engine.dhConfigure)

/-- BW.CONFIGURE (R97). -/
def execBwConfigure (s : State) : Host.Outcome State Fault Refusal := .next (s.perform .bw Engine.bwConfigure)

end Sys2Proof.Machine
end

