-- ==== Sys2Proof/Machine/DoubleHash.lean ====
section
/-! DEFINITION. The double-hash engine: the probe selector as a pure function and the key commands
(spec 41_double_hash.md R110–R117; 20_memory.md R51). -/

namespace Sys2Proof.Machine

/-- `val(h)`: the integer value of a digest, signed or not by `DH_DIGEST_SIGNED` (R111). -/
def digestValue (signed : Bool) (h : Word) : Int := if signed then h.toInt else (h.toNat : Int)

/-- `a = val(h1) mod m`, the floor-mod (R111). -/
def dhStart (signed : Bool) (m : Nat) (h1 : Word) : Nat := (digestValue signed h1 % (m : Int)).toNat

/-- `b = val(h2) mod m`, with 0 replaced by 1 after the reduction (R111, D7). -/
def dhStride (signed : Bool) (m : Nat) (h2 : Word) : Nat :=
  let b := (digestValue signed h2 % (m : Int)).toNat
  if b = 0 then 1 else b

/-- `p_i = (a + i*b) mod m`, exact (R112). -/
def dhProbe (signed : Bool) (h1 h2 : Word) (m i : Nat) : Nat := (dhStart signed m h1 + i * dhStride signed m h2) % m

/-- `DHProbes(h1, h2, m, k)`: the positions for i = 0 .. k-1 (R112). -/
def dhProbes (signed : Bool) (h1 h2 : Word) (m k : Nat) : List Nat := (List.range k).map (dhProbe signed h1 h2 m)

/-- `DHBit(p)`: bit `p & 7` of storage byte `p >> 3` (R51). -/
def dhBit (m : Memory) (p : Nat) : Bool := (m.read (p / 8)).getLsbD (p % 8)

/-- `DHSetBit(p)` (R51). -/
def dhSetBit (m : Memory) (p : Nat) : Memory := m.write (p / 8) (m.read (p / 8) ||| (1#8 <<< (p % 8)))

/-- The probe positions of a key under the latched configuration (R110). -/
def Engine.dhKeyProbes (x : Engine) (key : List Byte) : List Nat :=
  dhProbes x.params.digestSigned (hashOf x.params .dhH1 x.cfg.s1 key) (hashOf x.params .dhH2 x.cfg.s2 key)
    x.cfg.m.toNat x.cfg.k.toNat

/-- Set every probe bit of a key in a storage (R113). -/
def Engine.dhInsertKey (x : Engine) (storage : Memory) (key : List Byte) : Memory :=
  (x.dhKeyProbes key).foldl dhSetBit storage

/-- Whether every probe bit of a key is set (R114). -/
def Engine.dhHasKey (x : Engine) (key : List Byte) : Bool := (x.dhKeyProbes key).all (dhBit x.storage)

/-- `DH_INSERT` (R113). -/
def Engine.dhInsert (x : Engine) : Engine :=
  match x.keyCommandError with
  | some c => x.raise c
  | none => x.inserted (x.dhInsertKey x.storage x.key)

/-- `DH_CONTAINS` (R114). -/
def Engine.dhContains (x : Engine) : Engine :=
  match x.keyCommandError with
  | some c => (x.setResult false).raise c
  | none => (x.setResult (x.dhHasKey x.key)).raise .ok

/-- `DH_BULK_INSERT` (R115): the list is parsed before any storage write. -/
def Engine.dhBulkInsert (x : Engine) : Engine :=
  match x.keyCommandError with
  | some c => x.raise c
  | none =>
    match x.records with
    | none => x.raise .keyFormat
    | some keys => x.inserted (keys.foldl x.dhInsertKey x.storage)

/-- DH.INSERT (R113). -/
def execDhInsert (s : State) : Host.Outcome State Fault Refusal := .next (s.perform .dh Engine.dhInsert)

/-- DH.CONTAINS (R114). -/
def execDhContains (s : State) : Host.Outcome State Fault Refusal := .next (s.perform .dh Engine.dhContains)

/-- DH.BULK_INSERT (R115). -/
def execDhBulkInsert (s : State) : Host.Outcome State Fault Refusal := .next (s.perform .dh Engine.dhBulkInsert)

end Sys2Proof.Machine
end

