-- ==== Sys2Proof/Machine/Dispatch.lean ====
section
/-! DEFINITION. The meaning of every instruction, one arm per row of spec/opcode_table.json. -/

namespace Sys2Proof.Machine

def exec (i : Instr) (s : State) : Host.Outcome State Fault Refusal :=
  match i with
  | .dhConfigure => Sys2Proof.Machine.execDhConfigure s
  | .dhInsert => Sys2Proof.Machine.execDhInsert s
  | .dhContains => Sys2Proof.Machine.execDhContains s
  | .dhBulkInsert => Sys2Proof.Machine.execDhBulkInsert s
  | .bwConfigure => Sys2Proof.Machine.execBwConfigure s
  | .bwInsert => Sys2Proof.Machine.execBwInsert s
  | .bwContains => Sys2Proof.Machine.execBwContains s
  | .bwBulkInsert => Sys2Proof.Machine.execBwBulkInsert s
  | .writeSizeBits e v => Sys2Proof.Machine.execWriteSizeBits e v s
  | .writeNumHashes e v => Sys2Proof.Machine.execWriteNumHashes e v s
  | .writeSeed1 e v => Sys2Proof.Machine.execWriteSeed1 e v s
  | .writeSeed2 e v => Sys2Proof.Machine.execWriteSeed2 e v s
  | .writeKeyLen e v => Sys2Proof.Machine.execWriteKeyLen e v s
  | .writeKeyCount e v => Sys2Proof.Machine.execWriteKeyCount e v s
  | .writeKeyBuf e k n v => Sys2Proof.Machine.execWriteKeyBuf e k n v s
  | .readId e => Sys2Proof.Machine.execReadId e s
  | .readStatus e => Sys2Proof.Machine.execReadStatus e s
  | .readCapacityBits e => Sys2Proof.Machine.execReadCapacityBits e s
  | .readKEff e => Sys2Proof.Machine.execReadKEff e s
  | .readRawBytes e => Sys2Proof.Machine.execReadRawBytes e s
  | .readBlockBits e => Sys2Proof.Machine.execReadBlockBits e s
  | .readRaw e a n => Sys2Proof.Machine.execReadRaw e a n s

end Sys2Proof.Machine
end

