-- ==== Sys2Proof/Machine/Port.lean ====
section
/-! DEFINITION. Fetching: which host event is performed next and what it is (spec 20_memory.md R53, R60; 70_reset_and_hazards.md
R210, R214, R217). -/

namespace Sys2Proof.Machine

/-- What the port performs next. -/
inductive Fetched where
  | idle                            -- no event is delivered (R13, R218)
  | run (i : Instr) (s : State)     -- an instruction, in the state with its access taken from the port
  | settle (s : State)              -- a reset or an access that is no instruction; the state after it
  | stop (r : Fault)                -- an event that reaches no engine (log 8)
deriving Repr

/-- The event `ev` is performed in state `s` (its access already taken from the port). -/
def fetchEvent (ev : HostEvent) (s : State) : Fetched :=
  match ev with
  | .reset e => if hasEngine s.instances e then .settle (s.setEngine e (s.engine e).reset) else .stop .absentEngine
  | .access a =>
    if hasEngine s.instances a.engine then
      if (s.engine a.engine).inWindow a.offset then
        match decode a with
        | .ok i => .run i s
        | .error o => .settle (serve o s)
      else .stop .outsideWindow
    else .stop .absentEngine

/-- The oldest delivered event is performed (R60). -/
def fetch (s : State) : Fetched :=
  match s.port with
  | [] => .idle
  | ev :: rest => fetchEvent ev { s with port := rest }

end Sys2Proof.Machine
end

