-- ==== Sys2Proof/Machine/Step.lean ====
section
/-! DEFINITION. One step: the port performs the oldest delivered host event as one atomic step (spec 20_memory.md R59, R60;
70_reset_and_hazards.md R214); with none, the engines idle (R13, R218). -/

namespace Sys2Proof.Machine

def step (s : State) : Host.Outcome State Fault Refusal :=
  match fetch s with
  | .idle => .next s
  | .run i t => exec i t
  | .settle t => .next t
  | .stop r => .fault r

/-- The access of a row's number of spec/opcode_table.json placed as the next event of the port (log 6, 12). -/
def State.withFetchWord (s : State) (nbits w : Nat) : State :=
  { s with port := .access (tableAccess nbits w) :: s.port }

end Sys2Proof.Machine
end

