-- ==== Sys2Proof/Safety.lean ====
section
/-! DEFINITION. What the claims call a legal state and a run within one instance (spec 10_state.md R33, R40–R42; 40_configure.md
R98; 41_double_hash.md R116). -/

namespace Sys2Proof.Machine

/-- The geometry a configured engine of the kind holds (R33, R93, R95, R97). -/
def geometryOk (e : EngineKind) (p : Params) (c : Cfg) : Prop :=
  match e with
  | .dh => c.m.toNat ≤ p.maxDhBits ∧ c.wc = 0 ∧ c.bb = 0 ∧ c.rb.toNat = (c.m.toNat + 7) / 8
  | .bw => c.wc.toNat ≤ p.maxBwWords ∧ c.bb.toNat ≤ 57 ∧ c.wc.toNat = 2 ^ c.bb.toNat ∧
      c.m.toNat = c.wc.toNat * 64 ∧ c.rb.toNat = c.wc.toNat * 8 ∧ c.s2 = 0

/-- The legal states of one engine: its parameters in R7's ranges, its memories canonical and nothing outside their
architectural ranges (R39, R40), no configuration and no result before the first successful CONFIGURE (R24, R25, R33), a
positive configuration of the right geometry after it (R42), DH padding bits 0 (R40), `SEED2` of a BW engine 0 (R30). -/
structure EngineInv (e : EngineKind) (x : Engine) : Prop where
  params       : x.params.wf e
  keyBufWf     : x.keyBuf.wf = true
  storageWf    : x.storage.wf = true
  keyBufRange  : ∀ i, x.params.keybufBytes ≤ i → x.keyBuf.read i = 0#8
  storageRange : ∀ a, x.cfg.rb.toNat ≤ a → x.storage.read a = 0#8
  unconfigured : x.configured = false → x.cfg = Cfg.zero ∧ x.result = false
  positive     : x.configured = true → 0 < x.cfg.m.toNat ∧ 0 < x.cfg.k.toNat ∧ x.cfg.k.toNat ≤ x.params.maxK
  geometry     : x.configured = true → geometryOk e x.params x.cfg
  padding      : e = .dh → ∀ p, x.cfg.m.toNat ≤ p → dhBit x.storage p = false
  seed2        : e = .bw → x.seed2 = 0

/-- Both engines are in a legal state. -/
def State.Inv (s : State) : Prop := EngineInv .dh s.dh ∧ EngineInv .bw s.bw

/-- Both engines' memories are in canonical form. -/
def State.memoriesWf (s : State) : Prop :=
  (s.dh.keyBuf.wf = true ∧ s.dh.storage.wf = true) ∧ (s.bw.keyBuf.wf = true ∧ s.bw.storage.wf = true)

/-- The CONFIGURE command of an engine kind. -/
def configureOf : EngineKind → Instr
  | .dh => .dhConfigure
  | .bw => .bwConfigure

/-- The INSERT command of an engine kind. -/
def insertOf : EngineKind → Instr
  | .dh => .dhInsert
  | .bw => .bwInsert

/-- The CONTAINS command of an engine kind. -/
def containsOf : EngineKind → Instr
  | .dh => .dhContains
  | .bw => .bwContains

/-- The BULK_INSERT command of an engine kind. -/
def bulkInsertOf : EngineKind → Instr
  | .dh => .dhBulkInsert
  | .bw => .bwBulkInsert

/-- The event is the CONFIGURE command of the engine. -/
def isConfigure (e : EngineKind) (ev : HostEvent) : Prop :=
  ∃ a, ev = .access a ∧ decode a = .ok (configureOf e)

/-- The event may end the engine's current instance: its reset or its CONFIGURE (R98, R116). -/
def mayEndInstance (e : EngineKind) (ev : HostEvent) : Prop :=
  ev = .reset e ∨ isConfigure e ev

/-- The engine an event is addressed to. -/
def eventTarget : HostEvent → EngineKind
  | .access a => a.engine
  | .reset e => e

end Sys2Proof.Machine
end

