-- ==== Sys2Proof/Certificates/Slice0/Obligations.lean ====
section
/-! DEFINITION. The statements for the provers: what the spec's numbered rules say the engine pair does. The helpers say in the
rules' own terms what a key, a record list, the probe positions of a key and the bit positions of a key are, without the
model's own functions for them. -/

open Sys2Proof Sys2Proof.Machine

namespace Sys2Proof.Claims

/-- `t` is `s` with engine `e` in state `x` and one more answer `r`: everything else is unchanged. -/
def changesOnly (s t : State) (e : EngineKind) (x : Engine) (r : Response) : Prop :=
  t.engine e = x ∧ (∀ f, f ≠ e → t.engine f = s.engine f) ∧ t.instances = s.instances ∧ t.port = s.port ∧
  t.responses = r :: s.responses

/-- `t` is `s` with one more answer `r`. -/
def answersOnly (s t : State) (r : Response) : Prop :=
  (∀ f, t.engine f = s.engine f) ∧ t.instances = s.instances ∧ t.port = s.port ∧ t.responses = r :: s.responses

/-- R26: the number of an outcome code. -/
def errNumber : ErrCode → Nat
  | .ok => 0
  | .invalidConfiguration => 1
  | .capacityExceeded => 2
  | .notConfigured => 3
  | .keyTooLong => 4
  | .keyFormat => 5
  | .illegalCommand => 6

/-- R23: the number `STATUS` reads as. -/
def statusNumber (x : Engine) : Nat :=
  (if x.configured then 1 else 0) + (if x.result then 2 else 0) + 16 * errNumber x.err

/-- 10_state.md section 2: what an aligned 64-bit read of the register page at an offset returns. -/
def registerPageValue (e : EngineKind) (x : Engine) (offset : Nat) : Word :=
  if offset = 0x000 then (if e = .dh then 1 else 2)
  else if offset = 0x010 then BitVec.ofNat 64 (statusNumber x)
  else if offset = 0x018 then x.sizeBits
  else if offset = 0x020 then x.numHashes
  else if offset = 0x028 then x.seed1
  else if offset = 0x030 then (if e = .dh then x.seed2 else 0)
  else if offset = 0x038 then x.keyLen
  else if offset = 0x040 then x.keyCount
  else if offset = 0x048 then x.cfg.m
  else if offset = 0x050 then x.cfg.k
  else if offset = 0x058 then x.cfg.rb
  else if offset = 0x060 then (if e = .dh then 0 else BitVec.ofNat 64 x.cfg.bb.toNat)
  else 0

/-- 10_state.md section 2: what an aligned 64-bit write of the register page at an offset other than CMD's does. -/
def registerPageStore (e : EngineKind) (x : Engine) (offset : Nat) (v : Word) : Engine :=
  if offset = 0x018 then { x with sizeBits := v }
  else if offset = 0x020 then { x with numHashes := v }
  else if offset = 0x028 then { x with seed1 := v }
  else if offset = 0x030 then (if e = .dh then { x with seed2 := v } else x)
  else if offset = 0x038 then { x with keyLen := v }
  else if offset = 0x040 then { x with keyCount := v }
  else x

/-- `Σ_{j<n} byte(a+j) · 2^(8j)` as a 64-bit value. -/
def bytesValue (byte : Nat → Byte) (a n : Nat) : Word :=
  BitVec.ofNat 64 ((List.range n).map fun j => (byte (a + j)).toNat * 2 ^ (8 * j)).sum

/-- R76: `key` is `KeyBuf[0 .. KEY_LEN-1]`. -/
def holdsKey (x : Engine) (key : List Byte) : Prop :=
  key.length = x.keyLen.toNat ∧ ∀ j (h : j < key.length), key[j] = x.keyBuf.read j

/-- R77: the bytes of a record list: each record a 2-byte little-endian length and the key's bytes. -/
def recordBytes (keys : List (List Byte)) : List Byte :=
  keys.flatMap fun key => BitVec.ofNat 8 key.length :: BitVec.ofNat 8 (key.length / 256) :: key

/-- R77: `KeyBuf[0 .. KEY_LEN-1]` begins with `KEY_COUNT` records, which are `keys`. -/
def holdsRecords (x : Engine) (keys : List (List Byte)) : Prop :=
  keys.length = x.keyCount.toNat ∧ (∀ key ∈ keys, key.length < 65536) ∧
  (recordBytes keys).length ≤ x.keyLen.toNat ∧
  ∀ j (h : j < (recordBytes keys).length), (recordBytes keys)[j] = x.keyBuf.read j

/-- R110, R111: the integer value of a digest, by `DH_DIGEST_SIGNED`. -/
def digestInt (x : Engine) (h : Word) : Int := if x.params.digestSigned then h.toInt else h.toNat

/-- R110–R112: `p` is one of the k probe positions of the key. -/
def isProbe (x : Engine) (key : List Byte) (p : Nat) : Prop :=
  let m : Int := x.cfg.m.toNat
  let a : Int := digestInt x (hashOf x.params .dhH1 x.cfg.s1 key) % m
  let b : Int := digestInt x (hashOf x.params .dhH2 x.cfg.s2 key) % m
  ∃ i : Nat, i < x.cfg.k.toNat ∧ (p : Int) = (a + i * (if b = 0 then 1 else b)) % m

/-- R140, R141: the word the key selects, the top `block_bits` bits of its digest. -/
def selectedWord (x : Engine) (key : List Byte) : Nat :=
  (hashOf x.params .bwH x.cfg.s1 key).toNat / 2 ^ (64 - x.cfg.bb.toNat)

/-- R143, written out. The right shift is from general knowledge, as R143 marks it (log 21). -/
def mixed (c : MixParams) (s : Word) : Word :=
  let z := s ^^^ (s >>> c.s1)
  let z := z * c.m1
  let z := z ^^^ (z >>> c.s2)
  let z := z * c.m2
  z ^^^ (z >>> c.s3)

/-- R142, R144: `b` is one of the k bit positions of the key in its word. -/
def isPosition (x : Engine) (key : List Byte) (b : Nat) : Prop :=
  ∃ j : Nat, j < x.cfg.k.toNat ∧
    b = (mix x.params.mix
      (hashOf x.params .bwH x.cfg.s1 key + BitVec.ofNat 64 (j + 1) * x.params.mix.golden)).toNat % 64

/-- R52: bit `b` of word `w`. -/
def wordBit (m : Memory) (w b : Nat) : Bool := (m.read (8 * w + b / 8)).getLsbD (b % 8)

/-- R90: the two conditions of `INVALID_CONFIGURATION`. -/
def invalidArguments (x : Engine) : Prop := x.sizeBits.toInt ≤ 0 ∨ x.numHashes.toInt ≤ 0

/-- R91, R92: CONFIGURE in state `s` ends with INVALID_CONFIGURATION for arguments that are not positive, else with
CAPACITY_EXCEEDED beyond its limits, and then changes only `STATUS.ERR`. -/
def configureErrors (i : Instr) (e : EngineKind) (limitsExceeded : Prop) (s : State) : Prop :=
  (invalidArguments (s.engine e) →
    ∃ t, exec i s = .next t ∧ changesOnly s t e { s.engine e with err := .invalidConfiguration } .done) ∧
  (¬ invalidArguments (s.engine e) → limitsExceeded →
    ∃ t, exec i s = .next t ∧ changesOnly s t e { s.engine e with err := .capacityExceeded } .done)

/-- R194, R195, R191: the key command `i` in state `s` ends with NOT_CONFIGURED before any CONFIGURE, else with KEY_TOO_LONG for
a KEY_LEN above KEYBUF_BYTES, and then writes `STATUS.ERR`, a CONTAINS also `RESULT` = 0, and nothing else. -/
def keyErrors (i : Instr) (e : EngineKind) (isContains : Bool) (s : State) : Prop :=
  ((s.engine e).configured = false → ∃ t, exec i s = .next t ∧ changesOnly s t e
    { s.engine e with err := .notConfigured, result := !isContains && (s.engine e).result } .done) ∧
  ((s.engine e).configured = true → (s.engine e).params.keybufBytes < (s.engine e).keyLen.toNat →
    ∃ t, exec i s = .next t ∧ changesOnly s t e
      { s.engine e with err := .keyTooLong, result := !isContains && (s.engine e).result } .done)

/-- R77, R196: BULK_INSERT `i` in state `s` ends with KEY_FORMAT when the key buffer holds no list of KEY_COUNT records within
KEY_LEN, and then changes only `STATUS.ERR`. -/
def formatError (i : Instr) (e : EngineKind) (s : State) : Prop :=
  (s.engine e).configured = true → (s.engine e).keyLen.toNat ≤ (s.engine e).params.keybufBytes →
  (¬ ∃ keys, holdsRecords (s.engine e) keys) →
  ∃ t, exec i s = .next t ∧ changesOnly s t e { s.engine e with err := .keyFormat } .done

end Sys2Proof.Claims

open Sys2Proof.Claims

/-! ### Encoding -/

/-- Decoding the access that carries a well-formed instruction gives it back, with every operand (R70–R79). -/
def Obligations.DecodeOfEncodeIsInstruction : Prop :=
  ∀ i : Instr, i.wf = true → decode (encode i) = .ok i

/-- An access that decodes to an instruction is that instruction's encoding, but for the value bits its width does not carry, and
the instruction is well formed: no access is read as a neighbouring row. -/
def Obligations.EncodeOfDecodeIsAccess : Prop :=
  ∀ (a : BusAccess) (i : Instr), decode a = .ok i → i.wf = true ∧ encode i = a.carried

/-- R72, R74: over all 2^64 words written to CMD, exactly 1, 2, 3 and 4 are commands; the engine's kind selects the row. -/
def Obligations.CommandWordsDecode : Prop :=
  ∀ (e : EngineKind) (w : Word), decode (.write e 0x008 8 w) =
    if w = 0x1#64 then .ok (configureOf e)
    else if w = 0x2#64 then .ok (insertOf e)
    else if w = 0x3#64 then .ok (containsOf e)
    else if w = 0x4#64 then .ok (bulkInsertOf e)
    else .error (.illegalCommand e)

/-- A few accesses of R79's table and of the rows of the opcode table decode to the rows' instructions. -/
def Obligations.TabledAccessesDecode : Prop :=
  decode (.write .dh 0x008 8 0x0000000000000001#64) = .ok .dhConfigure ∧
  decode (.write .bw 0x008 8 0x0000000000000004#64) = .ok .bwBulkInsert ∧
  decode (.write .dh 0x018 8 0x3E8#64) = .ok (.writeSizeBits .dh 0x3E8#64) ∧
  decode (.write .dh 0x1000 4 0x68706C61#64) = .ok (.writeKeyBuf .dh 0 .b4 0x68706C61#64) ∧
  decode (.read .bw 0x048 8) = .ok (.readCapacityBits .bw) ∧
  decode (.read .bw 0x1000D 1) = .ok (.readRaw .bw 13 .b1)

/-! ### The port and the step -/

/-- When the oldest event is an access of the window that decodes to an instruction, the step is that instruction's exec in the
state with the access taken from the port. -/
def Obligations.StepRunsDecodedInstruction : Prop :=
  ∀ (s : State) (a : BusAccess) (rest : List HostEvent) (i : Instr),
    s.port = .access a :: rest → hasEngine s.instances a.engine = true →
    (s.engine a.engine).inWindow a.offset = true → decode a = .ok i →
    step s = exec i { s with port := rest }

/-- R60, R214: every access of a present engine's window completes in one step: it is taken from the head of the port, exactly
one answer is given, and no later event is touched. -/
def Obligations.WindowAccessCompletesInOrder : Prop :=
  ∀ (s : State) (a : BusAccess) (rest : List HostEvent),
    s.port = .access a :: rest → hasEngine s.instances a.engine = true →
    (s.engine a.engine).inWindow a.offset = true →
    ∃ t r, step s = .next t ∧ t.port = rest ∧ t.responses = r :: s.responses ∧ t.instances = s.instances

/-- Model's choice (log 5), from R13 "does nothing spontaneously": with no event delivered nothing changes. -/
def Obligations.IdlePortChangesNothing : Prop :=
  ∀ s : State, s.port = [] → step s = .next s

/-- Model's choice (log 8): an event that reaches no engine stops the machine by name. -/
def Obligations.EventsOutsideEnginesStop : Prop :=
  (∀ (s : State) (ev : HostEvent) (rest : List HostEvent), s.port = ev :: rest →
    hasEngine s.instances (eventTarget ev) = false → step s = .fault .absentEngine) ∧
  (∀ (s : State) (a : BusAccess) (rest : List HostEvent), s.port = .access a :: rest →
    hasEngine s.instances a.engine = true →
    0x10000 + (s.engine a.engine).params.rawWindowBytes ≤ a.offset → step s = .fault .outsideWindow)

/-- R54, R56, R57, R199: a wrong-width or misaligned access of any region is answered by a bus error and changes no state. That a
width other than 1, 2, 4 or 8 above the register page is such an access is DEDUCED from R199, R56 and R57 (log 10), and that
the bus error is an answer in a next state is DEDUCED from R199 (log 7). -/
def Obligations.BadAccessGetsBusError : Prop :=
  ∀ (s : State) (a : BusAccess) (rest : List HostEvent) (e : EngineKind) (offset width : Nat),
    (a = .read e offset width ∨ ∃ v, a = .write e offset width v) →
    s.port = .access a :: rest → hasEngine s.instances e = true → (s.engine e).inWindow offset = true →
    (offset < 0x1000 ∧ (width ≠ 8 ∨ offset % 8 ≠ 0) ∨
      0x1000 ≤ offset ∧ ((width ≠ 1 ∧ width ≠ 2 ∧ width ≠ 4 ∧ width ≠ 8) ∨ offset % width ≠ 0)) →
    ∃ t, step s = .next t ∧ answersOnly { s with port := rest } t .busError

/-- R55: an aligned 64-bit read of the register page returns what the register map says, at every offset, and has no side
effect. -/
def Obligations.RegisterPageReads : Prop :=
  ∀ (s : State) (e : EngineKind) (offset : Nat) (rest : List HostEvent),
    offset < 0x1000 → offset % 8 = 0 → s.port = .access (.read e offset 8) :: rest →
    hasEngine s.instances e = true →
    ∃ t, step s = .next t ∧
      answersOnly { s with port := rest } t (.value (registerPageValue e (s.engine e) offset))

/-- R55, R170: an aligned 64-bit write of the register page, other than to CMD, stores all 64 bits of an RW register and is
ignored at every RO, RAZ/WI and reserved offset. -/
def Obligations.RegisterPageWrites : Prop :=
  ∀ (s : State) (e : EngineKind) (offset : Nat) (v : Word) (rest : List HostEvent),
    offset < 0x1000 → offset % 8 = 0 → offset ≠ 0x008 → s.port = .access (.write e offset 8 v) :: rest →
    hasEngine s.instances e = true →
    ∃ t, step s = .next t ∧
      changesOnly { s with port := rest } t e (registerPageStore e (s.engine e) offset v) .done

/-- R193, R74: an illegal command word writes only `STATUS.ERR` (code 6), whatever else holds. -/
def Obligations.IllegalCommandWritesErrOnly : Prop :=
  ∀ (s : State) (e : EngineKind) (w : Word) (rest : List HostEvent),
    s.port = .access (.write e 0x008 8 w) :: rest → hasEngine s.instances e = true →
    (w.extractLsb' 4 60 ≠ 0#60 ∨ w.extractLsb' 0 4 = 0#4 ∨ 5 ≤ (w.extractLsb' 0 4).toNat) →
    ∃ t, step s = .next t ∧
      changesOnly { s with port := rest } t e { s.engine e with err := .illegalCommand } .done

/-- R56: an aligned read of the key-buffer window assembles its bytes little-endian, 0 at and beyond KEYBUF_BYTES. -/
def Obligations.KeyBufferWindowReads : Prop :=
  ∀ (s : State) (e : EngineKind) (k : Nat) (n : AccessSize) (rest : List HostEvent),
    k < 0x1000 → k % n.bytes = 0 → s.port = .access (.read e (0x1000 + k) n.bytes) :: rest →
    hasEngine s.instances e = true →
    ∃ t, step s = .next t ∧ answersOnly { s with port := rest } t (.value (bytesValue
      (fun j => if j < (s.engine e).params.keybufBytes then (s.engine e).keyBuf.read j else 0) k n.bytes))

/-- R57, R175: the reserved range reads 0 and ignores writes, and the raw window ignores writes. -/
def Obligations.ReservedRangeAndRawWrites : Prop :=
  (∀ (s : State) (e : EngineKind) (offset : Nat) (n : AccessSize) (rest : List HostEvent),
    0x2000 ≤ offset → offset < 0x10000 → offset % n.bytes = 0 →
    s.port = .access (.read e offset n.bytes) :: rest → hasEngine s.instances e = true →
    ∃ t, step s = .next t ∧ answersOnly { s with port := rest } t (.value 0)) ∧
  (∀ (s : State) (e : EngineKind) (offset : Nat) (n : AccessSize) (v : Word) (rest : List HostEvent),
    0x2000 ≤ offset → offset % n.bytes = 0 → (s.engine e).inWindow offset = true →
    s.port = .access (.write e offset n.bytes v) :: rest → hasEngine s.instances e = true →
    ∃ t, step s = .next t ∧ answersOnly { s with port := rest } t .done)

/-- R210: reset of one engine gives every piece of its state R45's value and leaves the other engine alone. -/
def Obligations.ResetEventClearsEngine : Prop :=
  ∀ (s : State) (e : EngineKind) (rest : List HostEvent),
    s.port = .reset e :: rest → hasEngine s.instances e = true →
    ∃ t, step s = .next t ∧ t.port = rest ∧ t.responses = s.responses ∧ t.instances = s.instances ∧
      (∀ f, f ≠ e → t.engine f = s.engine f) ∧
      (t.engine e).params = (s.engine e).params ∧
      (t.engine e).sizeBits = 0 ∧ (t.engine e).numHashes = 0 ∧ (t.engine e).seed1 = 0 ∧ (t.engine e).seed2 = 0 ∧
      (t.engine e).keyLen = 0 ∧ (t.engine e).keyCount = 0 ∧
      statusNumber (t.engine e) = 0 ∧ (t.engine e).cfg = ⟨0, 0, 0, 0, 0, 0, 0⟩ ∧
      (∀ a, (t.engine e).keyBuf.read a = 0) ∧ (∀ a, (t.engine e).storage.read a = 0) ∧
      ∀ offset, registerPageValue e (t.engine e) offset = if offset = 0 then (if e = .dh then 1 else 2) else 0

/-- R45: the reset state of both engines. -/
def Obligations.ResetStateValues : Prop :=
  ∀ e : EngineKind,
    (State.reset.engine e).sizeBits = 0 ∧ (State.reset.engine e).numHashes = 0 ∧
    (State.reset.engine e).seed1 = 0 ∧ (State.reset.engine e).seed2 = 0 ∧
    (State.reset.engine e).keyLen = 0 ∧ (State.reset.engine e).keyCount = 0 ∧
    statusNumber (State.reset.engine e) = 0 ∧ (State.reset.engine e).cfg = ⟨0, 0, 0, 0, 0, 0, 0⟩ ∧
    (∀ a, (State.reset.engine e).keyBuf.read a = 0) ∧ (∀ a, (State.reset.engine e).storage.read a = 0) ∧
    ∀ offset, registerPageValue e (State.reset.engine e) offset = if offset = 0 then (if e = .dh then 1 else 2) else 0

/-! ### The host accesses of the opcode table -/

/-- R170: each register write stores its 64-bit value and changes nothing else; SEED2 is ignored on BW. -/
def Obligations.RegisterWriteRows : Prop :=
  ∀ (s : State) (e : EngineKind) (v : Word),
    (∃ t, exec (.writeSizeBits e v) s = .next t ∧ changesOnly s t e { s.engine e with sizeBits := v } .done) ∧
    (∃ t, exec (.writeNumHashes e v) s = .next t ∧ changesOnly s t e { s.engine e with numHashes := v } .done) ∧
    (∃ t, exec (.writeSeed1 e v) s = .next t ∧ changesOnly s t e { s.engine e with seed1 := v } .done) ∧
    (∃ t, exec (.writeSeed2 e v) s = .next t ∧
      changesOnly s t e (if e = .dh then { s.engine e with seed2 := v } else s.engine e) .done) ∧
    (∃ t, exec (.writeKeyLen e v) s = .next t ∧ changesOnly s t e { s.engine e with keyLen := v } .done) ∧
    (∃ t, exec (.writeKeyCount e v) s = .next t ∧ changesOnly s t e { s.engine e with keyCount := v } .done)

/-- R171: an aligned key-buffer write stores its bytes little-endian, drops those at and beyond KEYBUF_BYTES, and changes no
other byte and nothing else; a misaligned one gets a bus error and changes nothing. -/
def Obligations.KeyBufferWriteStoresBytes : Prop :=
  (∀ (s : State) (e : EngineKind) (k : Nat) (n : AccessSize) (v : Word), k % n.bytes ≠ 0 →
    ∃ t, exec (.writeKeyBuf e k n v) s = .next t ∧ answersOnly s t .busError) ∧
  ∀ (s : State) (e : EngineKind) (k : Nat) (n : AccessSize) (v : Word),
    (s.engine e).keyBuf.wf = true → k % n.bytes = 0 →
    ∃ t m, exec (.writeKeyBuf e k n v) s = .next t ∧ changesOnly s t e { s.engine e with keyBuf := m } .done ∧
      ∀ b, m.read b = if k ≤ b ∧ b < k + n.bytes ∧ b < (s.engine e).params.keybufBytes
        then v.extractLsb' (8 * (b - k)) 8 else (s.engine e).keyBuf.read b

/-- R172, R173, R176: the accessor reads return their registers and change nothing. -/
def Obligations.AccessorReadRows : Prop :=
  ∀ (s : State) (e : EngineKind),
    (∃ t, exec (.readId e) s = .next t ∧ answersOnly s t (.value (if e = .dh then 1 else 2))) ∧
    (∃ t, exec (.readStatus e) s = .next t ∧
      answersOnly s t (.value (BitVec.ofNat 64 (statusNumber (s.engine e))))) ∧
    (∃ t, exec (.readCapacityBits e) s = .next t ∧ answersOnly s t (.value (s.engine e).cfg.m)) ∧
    (∃ t, exec (.readKEff e) s = .next t ∧ answersOnly s t (.value (s.engine e).cfg.k)) ∧
    (∃ t, exec (.readRawBytes e) s = .next t ∧ answersOnly s t (.value (s.engine e).cfg.rb)) ∧
    (∃ t, exec (.readBlockBits e) s = .next t ∧
      answersOnly s t (.value (if e = .dh then 0 else BitVec.ofNat 64 (s.engine e).cfg.bb.toNat)))

/-- R174: an aligned raw read returns the storage bytes below cfg.RB little-endian, 0 beyond, and changes nothing; a misaligned
one gets a bus error and changes nothing. -/
def Obligations.RawReadReturnsStorage : Prop :=
  (∀ (s : State) (e : EngineKind) (a : Nat) (n : AccessSize), a % n.bytes ≠ 0 →
    ∃ t, exec (.readRaw e a n) s = .next t ∧ answersOnly s t .busError) ∧
  ∀ (s : State) (e : EngineKind) (a : Nat) (n : AccessSize), a % n.bytes = 0 →
    ∃ t, exec (.readRaw e a n) s = .next t ∧ answersOnly s t (.value (bytesValue
      (fun x => if x < (s.engine e).cfg.rb.toNat then (s.engine e).storage.read x else 0) a n.bytes))

/-- R23, R26: the fields of `STATUS` at their bits; every other bit is 0. -/
def Obligations.StatusFieldsAtTheirBits : Prop :=
  ∀ x : Engine, x.status.getLsbD 0 = x.configured ∧ x.status.getLsbD 1 = x.result ∧
    x.status.extractLsb' 2 2 = 0#2 ∧ (x.status.extractLsb' 4 4).toNat = errNumber x.err ∧
    x.status.extractLsb' 8 56 = 0#56

/-! ### CONFIGURE -/

/-- R93: a DH CONFIGURE within the limits latches exactly its arguments, zeroes the storage, sets STATUS to 0x01 and changes
nothing else; its errors. -/
def Obligations.DhConfigureSucceeds : Prop :=
  (∀ s : State, configureErrors .dhConfigure .dh
    ((s.dh.params.maxDhBits : Int) < s.dh.sizeBits.toInt ∨ (s.dh.params.maxK : Int) < s.dh.numHashes.toInt) s) ∧
  ∀ (s : State) (m k : Nat),
    s.dh.sizeBits.toInt = m → s.dh.numHashes.toInt = k → 0 < m → 0 < k →
    m ≤ s.dh.params.maxDhBits → k ≤ s.dh.params.maxK →
    ∃ t c st, exec .dhConfigure s = .next t ∧
      changesOnly s t .dh
        { s.dh with cfg := c, storage := st, configured := true, result := false, err := .ok } .done ∧
      c.m.toNat = m ∧ c.k.toNat = k ∧ c.s1 = s.dh.seed1 ∧ c.s2 = s.dh.seed2 ∧ c.wc = 0 ∧ c.bb = 0 ∧
      c.rb.toNat = (m + 7) / 8 ∧ ∀ a, st.read a = 0

/-- R95, R97: a BW CONFIGURE within the limits latches the geometry, the word count being the least power of two that is at
least the requested words, zeroes the storage, sets STATUS to 0x01 and changes nothing else; its errors. -/
def Obligations.BwConfigureSucceeds : Prop :=
  (∀ s : State, configureErrors .bwConfigure .bw
    ((s.bw.params.maxBwWords : Int) < (s.bw.sizeBits.toInt + 63) / 64 ∨
      (s.bw.params.maxK : Int) < s.bw.numHashes.toInt) s) ∧
  ∀ (s : State) (size k : Nat),
    s.bw.sizeBits.toInt = size → s.bw.numHashes.toInt = k → 0 < size → 0 < k →
    (size + 63) / 64 ≤ s.bw.params.maxBwWords → k ≤ s.bw.params.maxK →
    ∃ t c st, exec .bwConfigure s = .next t ∧
      changesOnly s t .bw
        { s.bw with cfg := c, storage := st, configured := true, result := false, err := .ok } .done ∧
      (size + 63) / 64 ≤ c.wc.toNat ∧ (∀ j, (size + 63) / 64 ≤ 2 ^ j → c.wc.toNat ≤ 2 ^ j) ∧
      c.wc.toNat = 2 ^ c.bb.toNat ∧ c.m.toNat = c.wc.toNat * 64 ∧ c.rb.toNat = c.wc.toNat * 8 ∧
      c.k.toNat = k ∧ c.s1 = s.bw.seed1 ∧ c.s2 = 0 ∧ ∀ a, st.read a = 0

/-- R90, R92: CONFIGURE fails with INVALID_CONFIGURATION exactly when an argument is not positive, and then changes only
`STATUS.ERR`. -/
def Obligations.InvalidConfigurationExactly : Prop :=
  (∀ (s : State) (e : EngineKind), invalidArguments (s.engine e) →
    ∃ t, exec (configureOf e) s = .next t ∧
      changesOnly s t e { s.engine e with err := .invalidConfiguration } .done) ∧
  (∀ (s t : State) (e : EngineKind), exec (configureOf e) s = .next t →
    ((t.engine e).err = .invalidConfiguration ↔ invalidArguments (s.engine e)))

/-- R92: a CONFIGURE that does not end with OK ends with INVALID_CONFIGURATION or CAPACITY_EXCEEDED and changes only
`STATUS.ERR`: the instance that existed before stays. -/
def Obligations.FailedConfigureChangesErrOnly : Prop :=
  ∀ (s t : State) (e : EngineKind), exec (configureOf e) s = .next t → (t.engine e).err ≠ .ok →
    ((t.engine e).err = .invalidConfiguration ∨ (t.engine e).err = .capacityExceeded) ∧
    changesOnly s t e { s.engine e with err := (t.engine e).err } .done

/-- R114, R147 (corner cases), R93, R97: a fresh instance answers 0 for every key. -/
def Obligations.FreshInstanceContainsNothing : Prop :=
  ∀ (s t : State) (e : EngineKind), exec (configureOf e) s = .next t → (t.engine e).err = .ok →
    (t.engine e).keyLen.toNat ≤ (t.engine e).params.keybufBytes →
    ∃ u, exec (containsOf e) t = .next u ∧
      changesOnly t u e { t.engine e with result := false, err := .ok } .done

/-! ### The double-hash selector and commands -/

/-- R111, R112: the selector's list, for m ≥ 1: k positions, the i-th `(a + i*b) mod m` in exact arithmetic with a and b the reduced
digests and b = 1 where the reduced h2 is 0, each below m, each the previous one plus b with one conditional subtraction. -/
def Obligations.DhProbesFollowTheProgression : Prop :=
  ∀ (signed : Bool) (h1 h2 : Word) (m k : Nat), 0 < m →
    (dhProbes signed h1 h2 m k).length = k ∧
    ∀ i (hi : i < (dhProbes signed h1 h2 m k).length),
      let a : Int := (if signed then h1.toInt else (h1.toNat : Int)) % m
      let b0 : Int := (if signed then h2.toInt else (h2.toNat : Int)) % m
      let b : Int := if b0 = 0 then 1 else b0
      ((dhProbes signed h1 h2 m k)[i] : Int) = (a + i * b) % m ∧
      (dhProbes signed h1 h2 m k)[i] < m ∧
      ∀ hj : i + 1 < (dhProbes signed h1 h2 m k).length,
        ((dhProbes signed h1 h2 m k)[i + 1] : Int) =
          ((dhProbes signed h1 h2 m k)[i] : Int) + b -
            (if (m : Int) ≤ ((dhProbes signed h1 h2 m k)[i] : Int) + b then m else 0)

/-- R113: DH INSERT sets exactly the key's probe bits, keeps every other byte, writes ERR = OK and changes nothing else; its errors. -/
def Obligations.DhInsertSetsProbeBits : Prop :=
  (∀ s : State, keyErrors .dhInsert .dh false s) ∧
  ∀ (s : State) (key : List Byte), s.dh.storage.wf = true → 0 < s.dh.cfg.m.toNat →
    s.dh.configured = true → s.dh.keyLen.toNat ≤ s.dh.params.keybufBytes → holdsKey s.dh key →
    ∃ t st, exec .dhInsert s = .next t ∧ changesOnly s t .dh { s.dh with storage := st, err := .ok } .done ∧
      (∀ p, dhBit st p = true ↔ dhBit s.dh.storage p = true ∨ isProbe s.dh key p) ∧
      (∀ a, (∀ p, isProbe s.dh key p → p / 8 ≠ a) → st.read a = s.dh.storage.read a)

/-- R114: DH CONTAINS writes RESULT = 1 iff every probed bit is set, ERR = OK, and nothing else; its errors. -/
def Obligations.DhContainsTestsProbeBits : Prop :=
  (∀ s : State, keyErrors .dhContains .dh true s) ∧
  ∀ (s : State) (key : List Byte), 0 < s.dh.cfg.m.toNat →
    s.dh.configured = true → s.dh.keyLen.toNat ≤ s.dh.params.keybufBytes → holdsKey s.dh key →
    ∃ t r, exec .dhContains s = .next t ∧ changesOnly s t .dh { s.dh with result := r, err := .ok } .done ∧
      (r = true ↔ ∀ p, isProbe s.dh key p → dhBit s.dh.storage p = true)

/-- R115, R77: DH BULK_INSERT of a well-formed record list sets exactly the probe bits of its keys, keeps every other byte, writes
ERR = OK and changes nothing else; its errors. -/
def Obligations.DhBulkInsertSetsAllProbeBits : Prop :=
  (∀ s : State, keyErrors .dhBulkInsert .dh false s ∧ formatError .dhBulkInsert .dh s) ∧
  ∀ (s : State) (keys : List (List Byte)), s.dh.storage.wf = true → 0 < s.dh.cfg.m.toNat →
    s.dh.configured = true → s.dh.keyLen.toNat ≤ s.dh.params.keybufBytes → holdsRecords s.dh keys →
    ∃ t st, exec .dhBulkInsert s = .next t ∧ changesOnly s t .dh { s.dh with storage := st, err := .ok } .done ∧
      (∀ p, dhBit st p = true ↔ dhBit s.dh.storage p = true ∨ ∃ key ∈ keys, isProbe s.dh key p) ∧
      (∀ a, (∀ key ∈ keys, ∀ p, isProbe s.dh key p → p / 8 ≠ a) → st.read a = s.dh.storage.read a)

/-! ### The blocked-word selector and commands -/

/-- R142: the mixing state is the digest plus j times GOLDEN modulo 2^64, with no feedback of the mixed value. -/
def Obligations.MixingStateIsLinearCounter : Prop :=
  ∀ (c : MixParams) (d : Word) (j : Nat),
    (mixState c d j).toNat = (d.toNat + j * c.golden.toNat) % 2 ^ 64

/-- R141: the block index is the top bits of the digest and names a word of the storage. -/
def Obligations.BlockIndexIsTopBits : Prop :=
  ∀ (d : Word) (bb : Nat), bb ≤ 57 → bwIndex d bb = d.toNat / 2 ^ (64 - bb) ∧ bwIndex d bb < 2 ^ bb

/-- R143: MIX is xor-shift, multiply, xor-shift, multiply, xor-shift. That the xor-shift is a logical right shift is the spec's
"[from general knowledge, not in source]", not its source's (log 21). -/
def Obligations.MixIsTheFiveSteps : Prop :=
  ∀ (c : MixParams) (z : Word), mix c z = mixed c z

/-- R144: the mask has exactly the bits of the k positions, the low 6 bits of the mixed states; between 1 and min(k, 64)
bits are set. -/
def Obligations.MaskHasThePositions : Prop :=
  ∀ (c : MixParams) (d : Word) (k : Nat), 0 < k →
    (∀ b, (bwMask c d k).getLsbD b = true ↔ ∃ j, j < k ∧ b = (mix c (mixState c d (j + 1))).toNat % 64) ∧
    1 ≤ ((List.range 64).filter fun b => (bwMask c d k).getLsbD b).length ∧
    ((List.range 64).filter fun b => (bwMask c d k).getLsbD b).length ≤ min k 64

/-- R146, R149: BW INSERT ORs the key's positions into the one word its digest selects, keeps every byte of every other word,
writes ERR = OK and changes nothing else; its errors. -/
def Obligations.BwInsertOrsOneWord : Prop :=
  (∀ s : State, keyErrors .bwInsert .bw false s) ∧
  ∀ (s : State) (key : List Byte), s.bw.storage.wf = true → s.bw.cfg.bb.toNat ≤ 57 →
    s.bw.configured = true → s.bw.keyLen.toNat ≤ s.bw.params.keybufBytes → holdsKey s.bw key →
    ∃ t st, exec .bwInsert s = .next t ∧ changesOnly s t .bw { s.bw with storage := st, err := .ok } .done ∧
      (∀ b, b < 64 → (wordBit st (selectedWord s.bw key) b = true ↔
        wordBit s.bw.storage (selectedWord s.bw key) b = true ∨ isPosition s.bw key b)) ∧
      (∀ a, a / 8 ≠ selectedWord s.bw key → st.read a = s.bw.storage.read a)

/-- R147: BW CONTAINS writes RESULT = 1 iff every position is set in the selected word, ERR = OK, and nothing else; its errors. -/
def Obligations.BwContainsTestsOneWord : Prop :=
  (∀ s : State, keyErrors .bwContains .bw true s) ∧
  ∀ (s : State) (key : List Byte), s.bw.cfg.bb.toNat ≤ 57 →
    s.bw.configured = true → s.bw.keyLen.toNat ≤ s.bw.params.keybufBytes → holdsKey s.bw key →
    ∃ t r, exec .bwContains s = .next t ∧ changesOnly s t .bw { s.bw with result := r, err := .ok } .done ∧
      (r = true ↔ ∀ b, isPosition s.bw key b → wordBit s.bw.storage (selectedWord s.bw key) b = true)

/-- R148, R77: BW BULK_INSERT of a well-formed record list ORs each key's positions into the word it selects, keeps every byte of
every other word, writes ERR = OK and changes nothing else; its errors. -/
def Obligations.BwBulkInsertOrsWords : Prop :=
  (∀ s : State, keyErrors .bwBulkInsert .bw false s ∧ formatError .bwBulkInsert .bw s) ∧
  ∀ (s : State) (keys : List (List Byte)), s.bw.storage.wf = true → s.bw.cfg.bb.toNat ≤ 57 →
    s.bw.configured = true → s.bw.keyLen.toNat ≤ s.bw.params.keybufBytes → holdsRecords s.bw keys →
    ∃ t st, exec .bwBulkInsert s = .next t ∧ changesOnly s t .bw { s.bw with storage := st, err := .ok } .done ∧
      (∀ w b, b < 64 → (wordBit st w b = true ↔ wordBit s.bw.storage w b = true ∨
        ∃ key ∈ keys, selectedWord s.bw key = w ∧ isPosition s.bw key b)) ∧
      (∀ a, (∀ key ∈ keys, a / 8 ≠ selectedWord s.bw key) → st.read a = s.bw.storage.read a)

/-! ### Errors of the key commands -/

/-- R194, R114, R147: before any CONFIGURE the key commands end with NOT_CONFIGURED and, but for RESULT = 0 of CONTAINS, change
nothing else. -/
def Obligations.NotConfiguredHasNoEffect : Prop :=
  ∀ (s : State) (e : EngineKind), (s.engine e).configured = false →
    (∃ t, exec (insertOf e) s = .next t ∧ changesOnly s t e { s.engine e with err := .notConfigured } .done) ∧
    (∃ t, exec (bulkInsertOf e) s = .next t ∧ changesOnly s t e { s.engine e with err := .notConfigured } .done) ∧
    (∃ t, exec (containsOf e) s = .next t ∧
      changesOnly s t e { s.engine e with err := .notConfigured, result := false } .done)

/-- R195, R114, R147, R198: a KEY_LEN above KEYBUF_BYTES gives KEY_TOO_LONG and, but for RESULT = 0 of CONTAINS, changes nothing
else. -/
def Obligations.KeyTooLongHasNoEffect : Prop :=
  ∀ (s : State) (e : EngineKind), (s.engine e).configured = true →
    (s.engine e).params.keybufBytes < (s.engine e).keyLen.toNat →
    (∃ t, exec (insertOf e) s = .next t ∧ changesOnly s t e { s.engine e with err := .keyTooLong } .done) ∧
    (∃ t, exec (bulkInsertOf e) s = .next t ∧ changesOnly s t e { s.engine e with err := .keyTooLong } .done) ∧
    (∃ t, exec (containsOf e) s = .next t ∧
      changesOnly s t e { s.engine e with err := .keyTooLong, result := false } .done)

/-- R196, R77: a key buffer that holds no list of KEY_COUNT records within KEY_LEN gives KEY_FORMAT, and nothing is inserted. -/
def Obligations.KeyFormatHasNoEffect : Prop :=
  ∀ (s : State) (e : EngineKind), (s.engine e).configured = true →
    (s.engine e).keyLen.toNat ≤ (s.engine e).params.keybufBytes →
    (¬ ∃ keys, holdsRecords (s.engine e) keys) →
    ∃ t, exec (bulkInsertOf e) s = .next t ∧ changesOnly s t e { s.engine e with err := .keyFormat } .done

/-! ### The laws of the source, and whole-machine rules -/

/-- R116 (DH), R150 (BW), which the spec marks as derived: no false negatives. After a successful INSERT, along any run that ends no instance of the engine, a
successful CONTAINS of the same key answers 1. -/
def Obligations.NoFalseNegatives : Prop :=
  ∀ (e : EngineKind) (s t u v : State) (n : Nat),
    (s.engine e).storage.wf = true →
    exec (insertOf e) s = .next t → (t.engine e).err = .ok →
    (∀ ev ∈ t.port, ¬ mayEndInstance e ev) →
    Sys2Proof.core.run n t = .next u →
    (u.engine e).key = (s.engine e).key →
    exec (containsOf e) u = .next v → (v.engine e).err = .ok →
    (v.engine e).result = true

/-- R116, R150, which the spec marks as derived: a second INSERT of the same key leaves the engine exactly as the first left it. -/
def Obligations.InsertIsIdempotent : Prop :=
  ∀ (e : EngineKind) (s t u : State), (s.engine e).storage.wf = true →
    exec (insertOf e) s = .next t → exec (insertOf e) t = .next u → u.engine e = t.engine e

/-- R41, which the spec marks as derived from R113 and R146: no step clears a storage bit, but for a successful CONFIGURE of the
engine and its reset. -/
def Obligations.StorageBitsOnlyRise : Prop :=
  ∀ (e : EngineKind) (s t : State) (a b : Nat), (s.engine e).storage.wf = true → step s = .next t →
    (∀ ev, s.port.head? = some ev → ev ≠ .reset e ∧ (isConfigure e ev → (t.engine e).err ≠ .ok)) →
    ((s.engine e).storage.read a).getLsbD b = true → ((t.engine e).storage.read a).getLsbD b = true

/-- R42, R33: the latched configuration changes only at a successful CONFIGURE of the engine or its reset. -/
def Obligations.CfgChangesOnlyAtConfigure : Prop :=
  ∀ (e : EngineKind) (s t : State), step s = .next t → (t.engine e).cfg ≠ (s.engine e).cfg →
    ∃ ev rest, s.port = ev :: rest ∧
      (ev = .reset e ∨ (isConfigure e ev ∧ (t.engine e).err = .ok ∧ (t.engine e).configured = true))

/-- R24: CONFIGURED is set only by a successful CONFIGURE and cleared only by reset. -/
def Obligations.ConfiguredChangesOnlyByConfigureAndReset : Prop :=
  ∀ (e : EngineKind) (s t : State), step s = .next t →
    ((s.engine e).configured = true → (t.engine e).configured = false → ∃ rest, s.port = .reset e :: rest) ∧
    ((s.engine e).configured = false → (t.engine e).configured = true →
      ∃ ev rest, s.port = ev :: rest ∧ isConfigure e ev ∧ (t.engine e).err = .ok)

/-- R25: RESULT is written only by CONTAINS, by a successful CONFIGURE (to 0) and by reset (to 0). -/
def Obligations.ResultWrittenOnlyByContains : Prop :=
  ∀ (e : EngineKind) (s t : State), step s = .next t → (t.engine e).result ≠ (s.engine e).result →
    ∃ ev rest, s.port = ev :: rest ∧
      ((∃ a, ev = .access a ∧ decode a = .ok (containsOf e)) ∨
       (isConfigure e ev ∧ (t.engine e).err = .ok ∧ (t.engine e).result = false) ∨
       (ev = .reset e ∧ (t.engine e).result = false))

/-- R192: `STATUS.ERR` changes only by a write to CMD or by reset. -/
def Obligations.ErrChangesOnlyByCommands : Prop :=
  ∀ (e : EngineKind) (s t : State), step s = .next t → (t.engine e).err ≠ (s.engine e).err →
    ∃ ev rest, s.port = ev :: rest ∧ (ev = .reset e ∨ ∃ w, ev = .access (.write e 0x008 8 w))

/-- R175, R50: storage changes only by CONFIGURE, INSERT and BULK_INSERT of the engine and by its reset. -/
def Obligations.StorageChangesOnlyByCommands : Prop :=
  ∀ (e : EngineKind) (s t : State), step s = .next t → (t.engine e).storage ≠ (s.engine e).storage →
    ∃ ev rest, s.port = ev :: rest ∧ (ev = .reset e ∨
      ∃ w, ev = .access (.write e 0x008 8 w) ∧ (w = 0x1#64 ∨ w = 0x2#64 ∨ w = 0x4#64))

/-- R39: the key buffer changes only by a host write to its window and by reset; commands never write it. -/
def Obligations.KeyBufChangesOnlyByHostWrites : Prop :=
  ∀ (e : EngineKind) (s t : State), step s = .next t → (t.engine e).keyBuf ≠ (s.engine e).keyBuf →
    ∃ ev rest, s.port = ev :: rest ∧ (ev = .reset e ∨
      ∃ offset width v, ev = .access (.write e offset width v) ∧ 0x1000 ≤ offset ∧ offset < 0x2000)

/-- R13, R60: an event changes nothing of the engine it is not addressed to. -/
def Obligations.EnginesShareNoState : Prop :=
  ∀ (e : EngineKind) (s t : State) (ev : HostEvent) (rest : List HostEvent), step s = .next t →
    s.port = ev :: rest → eventTarget ev ≠ e → t.engine e = s.engine e

/-- R13, R60: what an event does to its engine and what it answers depend on that engine alone. -/
def Obligations.EngineIgnoresTheOther : Prop :=
  ∀ (e : EngineKind) (s s' t : State) (ev : HostEvent) (rest : List HostEvent),
    s.port = ev :: rest → s'.port = ev :: rest → eventTarget ev = e → s.engine e = s'.engine e →
    s.instances = s'.instances → s.responses = s'.responses → step s = .next t →
    ∃ t', step s' = .next t' ∧ t.engine e = t'.engine e ∧ t.responses = t'.responses

/-- R42: the argument registers SIZE_BITS, NUM_HASHES, SEED1 and SEED2 do not matter to the key commands of a configured
engine: with any other values in them the command does the same. -/
def Obligations.ArgumentRegistersDoNotMatterToKeyCommands : Prop :=
  ∀ (e : EngineKind) (i : Instr) (s t : State) (a b c d : Word),
    i = insertOf e ∨ i = containsOf e ∨ i = bulkInsertOf e → exec i s = .next t →
    exec i (s.setEngine e { s.engine e with sizeBits := a, numHashes := b, seed1 := c, seed2 := d }) =
      .next (t.setEngine e { t.engine e with sizeBits := a, numHashes := b, seed1 := c, seed2 := d })

/-- The parameters of an engine never change (R7: arguments of the model; log 2). -/
def Obligations.ParametersNeverChange : Prop :=
  ∀ (e : EngineKind) (s t : State), step s = .next t → (t.engine e).params = (s.engine e).params

/-! ### Invariants -/

/-- Every step keeps both memories of both engines in canonical form. -/
def Obligations.StepKeepsMemoriesCanonical : Prop :=
  ∀ s t : State, s.memoriesWf → step s = .next t → t.memoriesWf

/-- Every step keeps the legal states: R30, R33, R39, R40, R42 as an invariant (see EngineInv). -/
def Obligations.StepKeepsInvariant : Prop :=
  ∀ s t : State, s.Inv → step s = .next t → t.Inv

/-- The reset state is legal. -/
def Obligations.ResetStateIsLegal : Prop := State.reset.Inv
end

