-- ==== Sys2Proof/Laws/Decode.lean ====
section
/-! SUPPORT. The lemmas of the decoding tables: registers at offsets, command words, access sizes, and which engine a decoded access
is addressed to. -/

namespace Sys2Proof

@[simp] theorem regAt_offset (r : Reg) : regAt r.offset = some r := by cases r <;> rfl

theorem offset_of_regAt {o : Nat} {r : Reg} (h : regAt o = some r) : r.offset = o := by
  have := List.find?_some h
  simpa using this

/-- R72, R74: the command words are 1, 2, 3 and 4. -/
theorem commandOp_eq_some {w : Word} {op : CommandOp} : commandOp w = some op ↔ w = op.code := by
  have hi : ∀ v : Word, v = 0#60 ++ v.extractLsb' 0 4 ↔ v.extractLsb' 4 60 = 0#60 := by
    intro v
    constructor
    · intro h
      rw [h]
      apply BitVec.eq_of_getLsbD_eq
      intro b hb
      rw [BitVec.getLsbD_extractLsb', BitVec.getLsbD_append]
      simp
    · intro h
      apply BitVec.eq_of_getLsbD_eq
      intro b hb
      rw [BitVec.getLsbD_append]
      by_cases h4 : b < 4
      · simp [h4]
      · have := congrArg (fun u => u.getLsbD (b - 4)) h
        simp only [BitVec.getLsbD_extractLsb', BitVec.getLsbD_zero] at this
        have hlt : b - 4 < 60 := by omega
        simp only [hlt, decide_true, Bool.true_and, show 4 + (b - 4) = b by omega] at this
        simp [h4, this]
  unfold commandOp
  by_cases h0 : w.extractLsb' 4 60 = 0#60
  · rw [if_pos h0]
    have hw := (hi w).2 h0
    generalize w.extractLsb' 0 4 = v at hw
    subst hw
    cases op <;> revert v <;> decide
  · rw [if_neg h0]
    constructor
    · intro h; cases h
    · rintro rfl; exact absurd (by cases op <;> rfl) h0

theorem accessSize_eq_some {w : Nat} {n : AccessSize} : accessSize w = some n ↔ w = n.bytes := by
  constructor
  · intro h
    unfold accessSize at h
    split at h <;> cases h <;> rfl
  · rintro rfl; cases n <;> rfl

theorem accessSize_eq_none {w : Nat} : accessSize w = none ↔ w ≠ 1 ∧ w ≠ 2 ∧ w ≠ 4 ∧ w ≠ 8 := by
  constructor
  · intro h
    refine ⟨?_, ?_, ?_, ?_⟩ <;> rintro rfl <;> cases h
  · rintro ⟨h1, h2, h4, h8⟩
    unfold accessSize
    split <;> first | rfl | contradiction

theorem alignedSize_eq_some {o w : Nat} {n : AccessSize} :
    alignedSize o w = some n ↔ w = n.bytes ∧ o % n.bytes = 0 := by
  unfold alignedSize
  cases hs : accessSize w with
  | none =>
    simp only [reduceCtorEq, false_iff, not_and]
    rintro rfl; rw [accessSize_eq_some.2 rfl] at hs; cases hs
  | some k =>
    rw [accessSize_eq_some] at hs
    subst hs
    show (if o % k.bytes = 0 then some k else none) = some n ↔ _
    by_cases ho : o % k.bytes = 0
    · rw [if_pos ho, Option.some.injEq]
      constructor
      · rintro rfl; exact ⟨rfl, ho⟩
      · rintro ⟨hk, _⟩; cases k <;> cases n <;> first | rfl | cases hk
    · rw [if_neg ho]
      constructor
      · intro h; cases h
      · rintro ⟨hk, hn⟩; rw [← hk] at hn; exact absurd hn ho

/-- R54–R57: what gets a bus error outside the register page. -/
theorem alignedSize_eq_none {o w : Nat} :
    alignedSize o w = none ↔ (w ≠ 1 ∧ w ≠ 2 ∧ w ≠ 4 ∧ w ≠ 8) ∨ o % w ≠ 0 := by
  unfold alignedSize
  cases hs : accessSize w with
  | none => simp [accessSize_eq_none.1 hs]
  | some k =>
    have hw := accessSize_eq_some.1 hs
    subst hw
    have : ¬ (k.bytes ≠ 1 ∧ k.bytes ≠ 2 ∧ k.bytes ≠ 4 ∧ k.bytes ≠ 8) := by cases k <;> simp [AccessSize.bytes]
    simp [this]

theorem bytes_pos (n : AccessSize) : 0 < n.bytes := by cases n <;> decide

theorem bytes_dvd (n : AccessSize) : n.bytes ∣ 8 := by cases n <;> decide

theorem lowBytes_of_lt {n : Nat} {v : Word} (h : v.toNat < 2 ^ (8 * n)) : lowBytes n v = v := by
  rw [lowBytes, Nat.mod_eq_of_lt h]; simp

theorem lowBytes_eight (v : Word) : lowBytes 8 v = v := lowBytes_of_lt v.isLt

theorem lowBytes_lt (n : Nat) (v : Word) : (lowBytes n v).toNat < 2 ^ (8 * n) := by
  rw [lowBytes, BitVec.toNat_ofNat]
  exact lt_of_le_of_lt (Nat.mod_le _ _) (Nat.mod_lt _ (by positivity))

/-- The engine an instruction is addressed to. -/
def instrTarget : Instr → EngineKind
  | .dhConfigure | .dhInsert | .dhContains | .dhBulkInsert => .dh
  | .bwConfigure | .bwInsert | .bwContains | .bwBulkInsert => .bw
  | .writeSizeBits e _ | .writeNumHashes e _ | .writeSeed1 e _ | .writeSeed2 e _ => e
  | .writeKeyLen e _ | .writeKeyCount e _ | .writeKeyBuf e _ _ _ => e
  | .readId e | .readStatus e | .readCapacityBits e | .readKEff e | .readRawBytes e | .readBlockBits e => e
  | .readRaw e _ _ => e

/-- The engine an access that is no instruction is addressed to. -/
def otherTarget : OtherAccess → EngineKind
  | .illegalCommand e | .readRegister e _ | .readKeyBuf e _ _ | .readZero e | .ignoreWrite e | .busError e => e

/-- Decoding keeps the engine of the access. -/
theorem decode_target (a : BusAccess) :
    (∀ i, decode a = .ok i → instrTarget i = a.engine) ∧ (∀ o, decode a = .error o → otherTarget o = a.engine) := by
  have hc : ∀ e w, (∀ i, decodeCommand e w = .ok i → instrTarget i = e) ∧
      (∀ o, decodeCommand e w = .error o → otherTarget o = e) := by
    intro e w
    unfold decodeCommand
    split
    · rename_i op _
      exact ⟨fun i h => by cases h; cases e <;> cases op <;> rfl, fun o h => by cases h⟩
    · exact ⟨fun i h => (by cases h), fun o h => by cases h; rfl⟩
  have hw : ∀ e v r, (∀ i, decodeRegWrite e v r = .ok i → instrTarget i = e) ∧
      (∀ o, decodeRegWrite e v r = .error o → otherTarget o = e) := by
    intro e v r
    match r with
    | some .cmd => exact hc e v
    | none => exact ⟨fun i h => (by cases h), fun o h => by cases h; rfl⟩
    | some .id | some .status | some .capacityBits | some .kEff | some .rawBytes | some .blockBits
    | some .sizeBits | some .numHashes | some .seed1 | some .seed2 | some .keyLen | some .keyCount =>
      exact ⟨fun i h => (by cases h <;> rfl), fun o h => (by cases h <;> rfl)⟩
  have hr : ∀ e r, (∀ i, decodeRegRead e r = .ok i → instrTarget i = e) ∧
      (∀ o, decodeRegRead e r = .error o → otherTarget o = e) := by
    intro e r
    match r with
    | none => exact ⟨fun i h => (by cases h), fun o h => by cases h; rfl⟩
    | some r => cases r <;> exact ⟨fun i h => (by cases h <;> rfl), fun o h => (by cases h <;> rfl)⟩
  cases a with
  | read e o w =>
    simp only [decode, decodeRead, BusAccess.engine]
    split_ifs
    · exact hr e _
    · exact ⟨fun i h => (by cases h), fun o h => by cases h; rfl⟩
    · split
      · exact ⟨fun i h => (by cases h), fun o h => by cases h; rfl⟩
      · exact ⟨fun i h => (by cases h), fun o h => by cases h; rfl⟩
    · split
      · exact ⟨fun i h => (by cases h), fun o h => by cases h; rfl⟩
      · exact ⟨fun i h => (by cases h), fun o h => by cases h; rfl⟩
    · split
      · exact ⟨fun i h => (by cases h), fun o h => by cases h; rfl⟩
      · exact ⟨fun i h => (by cases h; rfl), fun o h => by cases h⟩
  | write e o w v =>
    simp only [decode, decodeWrite, BusAccess.engine]
    split_ifs
    · exact hw e v _
    · exact ⟨fun i h => (by cases h), fun o h => by cases h; rfl⟩
    · split
      · exact ⟨fun i h => (by cases h), fun o h => by cases h; rfl⟩
      · exact ⟨fun i h => (by cases h; rfl), fun o h => by cases h⟩
    · split
      · exact ⟨fun i h => (by cases h), fun o h => by cases h; rfl⟩
      · exact ⟨fun i h => (by cases h), fun o h => by cases h; rfl⟩

end Sys2Proof
end

