-- ==== Sys2Proof/Laws/Memory.lean ====
section
/-! SUPPORT. The laws of byte memories: a read after a write, the canonical form, that canonical memories with equal bytes are
equal, and the little-endian accesses. -/

namespace Sys2Proof.Machine

@[simp] theorem Memory.read_nil (a : Nat) : Memory.read [] a = 0#8 := rfl
@[simp] theorem Memory.wf_nil : Memory.wf [] = true := rfl

theorem Memory.wfFrom_mono {m : Memory} {lo hi : Nat} (h : Memory.wfFrom m hi = true) (hle : lo ≤ hi) :
    Memory.wfFrom m lo = true := by
  cases m with
  | nil => rfl
  | cons c rest => simp only [Memory.wfFrom, Bool.and_eq_true, decide_eq_true_eq] at h ⊢; exact ⟨⟨by omega, h.1.2⟩, h.2⟩

/-- Below its bound a canonical memory lists nothing. -/
theorem Memory.read_below {m : Memory} {lo a : Nat} (h : Memory.wfFrom m lo = true) (ha : a < lo) : m.read a = 0#8 := by
  induction m generalizing lo with
  | nil => rfl
  | cons c rest ih =>
    simp only [Memory.wfFrom, Bool.and_eq_true, decide_eq_true_eq] at h
    rw [Memory.read, if_neg (by omega)]
    exact ih h.2 (by omega)

/-- Where every listed address lies below `n`, everything from `n` on reads 0. -/
theorem Memory.read_above {m : Memory} {n a : Nat} (h : m.all (fun c => decide (c.1 < n)) = true) (ha : n ≤ a) :
    m.read a = 0#8 := by
  induction m with
  | nil => rfl
  | cons c m ih =>
    obtain ⟨b, v⟩ := c
    simp only [List.all_cons, Bool.and_eq_true, decide_eq_true_eq] at h
    rw [Memory.read, if_neg (by omega)]
    exact ih h.2

theorem Memory.wfFrom_write {m : Memory} {lo : Nat} (h : Memory.wfFrom m lo = true) {a : Nat} (ha : lo ≤ a) (v : Byte) :
    Memory.wfFrom (m.write a v) lo = true := by
  induction m generalizing lo with
  | nil => by_cases hv : v = 0#8 <;> simp [Memory.write, Memory.wfFrom, hv, ha]
  | cons c rest ih =>
    obtain ⟨b, w⟩ := c
    simp only [Memory.wfFrom, Bool.and_eq_true, decide_eq_true_eq] at h
    obtain ⟨⟨hb, hw⟩, hr⟩ := h
    rw [Memory.write]
    rcases Nat.lt_trichotomy a b with hlt | heq | hgt
    · rw [if_pos hlt]
      by_cases hv : v = 0#8
      · rw [if_pos hv]
        simp only [Memory.wfFrom, Bool.and_eq_true, decide_eq_true_eq]
        exact ⟨⟨hb, hw⟩, hr⟩
      · simp only [hv, if_false, Memory.wfFrom, Bool.and_eq_true, decide_eq_true_eq]
        exact ⟨⟨ha, hv⟩, ⟨by omega, hw⟩, hr⟩
    · rw [if_neg (by omega), if_pos heq]
      by_cases hv : v = 0#8
      · simp only [hv, if_true]; exact Memory.wfFrom_mono hr (by omega)
      · simp only [hv, if_false, Memory.wfFrom, Bool.and_eq_true, decide_eq_true_eq]
        exact ⟨⟨ha, hv⟩, by rw [heq]; exact hr⟩
    · rw [if_neg (by omega), if_neg (by omega)]
      simp only [Memory.wfFrom, Bool.and_eq_true, decide_eq_true_eq]
      exact ⟨⟨hb, hw⟩, ih hr (by omega)⟩

/-- Every write keeps the canonical form. -/
theorem Memory.wf_write {m : Memory} (h : m.wf = true) (a : Nat) (v : Byte) : (m.write a v).wf = true :=
  Memory.wfFrom_write h (Nat.zero_le a) v

theorem Memory.read_write_from {m : Memory} {lo : Nat} (h : Memory.wfFrom m lo = true) (a : Nat) (v : Byte) (b : Nat) :
    (m.write a v).read b = if b = a then v else m.read b := by
  induction m generalizing lo with
  | nil =>
    by_cases hv : v = 0#8 <;> by_cases hb : b = a <;> simp [Memory.write, Memory.read, hv, hb, eq_comm (a := a)]
  | cons c rest ih =>
    obtain ⟨d, w⟩ := c
    simp only [Memory.wfFrom, Bool.and_eq_true, decide_eq_true_eq] at h
    obtain ⟨⟨_, hw⟩, hr⟩ := h
    rw [Memory.write]
    rcases Nat.lt_trichotomy a d with hlt | heq | hgt
    · rw [if_pos hlt]
      by_cases hv : v = 0#8
      · simp only [hv, if_true]
        by_cases hb : b = a
        · rw [if_pos hb, Memory.read, if_neg (by omega), hb]
          exact Memory.read_below hr (by omega)
        · rw [if_neg hb]
      · simp only [hv, if_false]
        rw [Memory.read]
        by_cases hb : b = a
        · rw [if_pos hb.symm, if_pos hb]
        · rw [if_neg (Ne.symm hb), if_neg hb]
    · rw [if_neg (by omega), if_pos heq]
      by_cases hv : v = 0#8
      · simp only [hv, if_true]
        by_cases hb : b = a
        · rw [if_pos hb, hb]; exact Memory.read_below hr (by omega)
        · rw [if_neg hb, Memory.read, if_neg (by omega)]
      · simp only [hv, if_false]
        rw [Memory.read]
        by_cases hb : b = a
        · rw [if_pos hb.symm, if_pos hb]
        · rw [if_neg (Ne.symm hb), if_neg hb, Memory.read, if_neg (by omega)]
    · rw [if_neg (by omega), if_neg (by omega), Memory.read, Memory.read, ih hr]
      by_cases hd : d = b
      · rw [if_pos hd, if_pos hd, if_neg (by omega)]
      · rw [if_neg hd, if_neg hd]

/-- A read after a write: the written byte there, every other byte as before. -/
theorem Memory.read_write {m : Memory} (h : m.wf = true) (a : Nat) (v : Byte) (b : Nat) :
    (m.write a v).read b = if b = a then v else m.read b :=
  Memory.read_write_from h a v b

theorem Memory.ext_from {m n : Memory} {lo : Nat} (hm : Memory.wfFrom m lo = true) (hn : Memory.wfFrom n lo = true)
    (h : ∀ a, m.read a = n.read a) : m = n := by
  induction m generalizing n lo with
  | nil =>
    cases n with
    | nil => rfl
    | cons c rest =>
      obtain ⟨b, w⟩ := c
      simp only [Memory.wfFrom, Bool.and_eq_true, decide_eq_true_eq] at hn
      have := h b
      simp only [Memory.read, if_true] at this
      exact absurd this.symm hn.1.2
  | cons c rest ih =>
    obtain ⟨b, w⟩ := c
    simp only [Memory.wfFrom, Bool.and_eq_true, decide_eq_true_eq] at hm
    cases n with
    | nil =>
      have := h b
      simp only [Memory.read, if_true] at this
      exact absurd this hm.1.2
    | cons c' rest' =>
      obtain ⟨b', w'⟩ := c'
      simp only [Memory.wfFrom, Bool.and_eq_true, decide_eq_true_eq] at hn
      have hbb : b = b' := by
        rcases Nat.lt_trichotomy b b' with hlt | heq | hgt
        · have := h b
          rw [Memory.read, if_pos rfl, Memory.read, if_neg (by omega), Memory.read_below hn.2 (by omega)] at this
          exact absurd this hm.1.2
        · exact heq
        · have := h b'
          rw [Memory.read, if_neg (by omega), Memory.read_below hm.2 (by omega), Memory.read, if_pos rfl] at this
          exact absurd this.symm hn.1.2
      subst hbb
      have hww : w = w' := by have := h b; simpa [Memory.read] using this
      subst hww
      rw [ih hm.2 hn.2 fun a => ?_]
      by_cases ha : b = a
      · rw [Memory.read_below hm.2 (by omega), Memory.read_below hn.2 (by omega)]
      · have := h a
        rwa [Memory.read, if_neg ha, Memory.read, if_neg ha] at this

/-- Equal memories are equal data. -/
theorem Memory.ext {m n : Memory} (hm : m.wf = true) (hn : n.wf = true) (h : ∀ a, m.read a = n.read a) : m = n :=
  Memory.ext_from hm hn h

/-! ### Little-endian accesses -/

/-- Everything a guarded store of `n` bytes does: the bytes below the size become those of the value, the others stay. -/
theorem storeKeyBytes_spec {m : Memory} (h : m.wf = true) (size i : Nat) (v : Word) (n : Nat) :
    ((List.range n).foldl (storeKeyByte size i v) m).wf = true ∧
    ∀ b, ((List.range n).foldl (storeKeyByte size i v) m).read b =
      if i ≤ b ∧ b < i + n ∧ b < size then byteOf v (b - i) else m.read b := by
  induction n with
  | zero => exact ⟨h, fun b => by rw [if_neg (by omega)]; rfl⟩
  | succ n ih =>
    rw [List.range_succ, List.foldl_append]
    simp only [List.foldl_cons, List.foldl_nil]
    generalize hq : (List.range n).foldl (storeKeyByte size i v) m = q at ih
    obtain ⟨hw, hr⟩ := ih
    unfold storeKeyByte
    by_cases hs : i + n < size
    · rw [if_pos hs]
      refine ⟨Memory.wf_write hw _ _, fun b => ?_⟩
      rw [Memory.read_write hw, hr]
      by_cases hb : b = i + n
      · subst hb; rw [if_pos rfl, if_pos (by omega)]; congr 1; omega
      · rw [if_neg hb]
        by_cases hc : i ≤ b ∧ b < i + n ∧ b < size
        · rw [if_pos hc, if_pos (by omega)]
        · rw [if_neg hc, if_neg (by omega)]
    · rw [if_neg hs]
      refine ⟨hw, fun b => ?_⟩
      rw [hr]
      by_cases hc : i ≤ b ∧ b < i + n ∧ b < size
      · rw [if_pos hc, if_pos (by omega)]
      · rw [if_neg hc, if_neg (by omega)]

/-- Everything `MemWrite` does. -/
theorem memWrite_spec {m : Memory} (h : m.wf = true) (a n : Nat) (v : Word) :
    (memWrite m a n v).wf = true ∧
    ∀ b, (memWrite m a n v).read b = if a ≤ b ∧ b < a + n then byteOf v (b - a) else m.read b := by
  unfold memWrite
  induction n with
  | zero => exact ⟨h, fun b => by rw [if_neg (by omega)]; rfl⟩
  | succ n ih =>
    rw [List.range_succ, List.foldl_append]
    simp only [List.foldl_cons, List.foldl_nil]
    refine ⟨Memory.wf_write ih.1 _ _, fun b => ?_⟩
    rw [Memory.read_write ih.1, ih.2]
    by_cases hb : b = a + n
    · subst hb; rw [if_pos rfl, if_pos (by omega)]; congr 1; omega
    · rw [if_neg hb]
      by_cases hc : a ≤ b ∧ b < a + n
      · rw [if_pos hc, if_pos (by omega)]
      · rw [if_neg hc, if_neg (by omega)]

theorem littleEndian_lt (f : Nat → Byte) (a n : Nat) : littleEndian f a n < 2 ^ (8 * n) := by
  induction n generalizing a with
  | zero => simp [littleEndian]
  | succ n ih =>
    have h1 := ih (a + 1)
    have h2 := (f a).isLt
    have h3 : 2 ^ (8 * (n + 1)) = 256 * 2 ^ (8 * n) := by rw [Nat.mul_add, Nat.pow_add]; omega
    rw [littleEndian]; omega

/-- Bit `b` of a little-endian value is bit `b % 8` of byte `b / 8`. -/
theorem littleEndian_testBit (f : Nat → Byte) (a n b : Nat) :
    (littleEndian f a n).testBit b = (decide (b < 8 * n) && (f (a + b / 8)).getLsbD (b % 8)) := by
  induction n generalizing a b with
  | zero => simp [littleEndian]
  | succ n ih =>
    have h2 : (f a).toNat < 2 ^ 8 := (f a).isLt
    have e : littleEndian f a (n + 1) = 2 ^ 8 * littleEndian f (a + 1) n + (f a).toNat := by
      rw [littleEndian]; omega
    rw [e, Nat.testBit_two_pow_mul_add _ h2]
    by_cases hb : b < 8
    · rw [if_pos hb, Nat.div_eq_of_lt hb, Nat.mod_eq_of_lt hb]
      simp [BitVec.getLsbD, show b < 8 * (n + 1) by omega]
    · rw [if_neg hb, ih]
      have h3 : a + 1 + (b - 8) / 8 = a + b / 8 := by omega
      have h4 : (b - 8) % 8 = b % 8 := by omega
      have h5 : decide (b - 8 < 8 * n) = decide (b < 8 * (n + 1)) := by
        rw [decide_eq_decide]; omega
      rw [h3, h4, h5]

/-- Bit `b` of an 8-byte read. -/
theorem getLsbD_memRead_eight (m : Memory) (a b : Nat) (hb : b < 64) :
    (memRead m a 8).getLsbD b = (m.read (a + b / 8)).getLsbD (b % 8) := by
  rw [memRead, BitVec.getLsbD_ofNat, littleEndian_testBit]
  simp [hb]

theorem getLsbD_byteOf (v : Word) (j b : Nat) (hb : b < 8) : (byteOf v j).getLsbD b = v.getLsbD (8 * j + b) := by
  simp [byteOf, hb]

/-- Two bytes that agree on every bit are equal. -/
theorem byte_ext {u v : Byte} (h : ∀ b, b < 8 → u.getLsbD b = v.getLsbD b) : u = v :=
  BitVec.eq_of_getLsbD_eq fun b hb => h b hb

/-- `MemRead` after `MemWrite` of 8 bytes at the same address gives the word. -/
theorem memRead_memWrite {m : Memory} (h : m.wf = true) (a : Nat) (v : Word) : memRead (memWrite m a 8 v) a 8 = v := by
  apply BitVec.eq_of_getLsbD_eq
  intro b hb
  rw [getLsbD_memRead_eight _ _ _ hb, (memWrite_spec h a 8 v).2, if_pos (by omega), getLsbD_byteOf _ _ _ (by omega)]
  congr 1; omega

theorem littleEndian_congr {f g : Nat → Byte} {a n : Nat} (h : ∀ b, a ≤ b → b < a + n → f b = g b) :
    littleEndian f a n = littleEndian g a n := by
  induction n generalizing a with
  | zero => rfl
  | succ n ih =>
    rw [littleEndian, littleEndian, h a (Nat.le_refl a) (by omega), ih fun b h1 h2 => h b (by omega) (by omega)]

/-- `littleEndian` is the sum of R50 and R174. -/
theorem littleEndian_eq_sum (f : Nat → Byte) (a n : Nat) :
    littleEndian f a n = ((List.range n).map fun j => (f (a + j)).toNat * 2 ^ (8 * j)).sum := by
  induction n generalizing a with
  | zero => rfl
  | succ n ih =>
    rw [littleEndian, ih, List.range_succ_eq_map, List.map_cons, List.sum_cons, List.map_map]
    have : ∀ l : List Nat, 256 * (l.map fun j => (f (a + 1 + j)).toNat * 2 ^ (8 * j)).sum =
        (l.map ((fun j => (f (a + j)).toNat * 2 ^ (8 * j)) ∘ Nat.succ)).sum := by
      intro l
      induction l with
      | nil => rfl
      | cons j l ihl =>
        simp only [List.map_cons, List.sum_cons, Nat.mul_add, ihl, Function.comp]
        rw [show a + 1 + j = a + j.succ by omega, Nat.succ_eq_add_one, Nat.mul_add, Nat.pow_add]
        ring
    rw [this]; simp

end Sys2Proof.Machine
end

