-- ==== Sys2Proof/Laws/Selectors.lean ====
section
/-! SUPPORT. What the probe selector, the word selector, the mixer, the storage updates and the geometry do, each said once. -/

namespace Sys2Proof.Machine

/-! ### DH: positions and bits -/

theorem dhStride_pos (signed : Bool) (m : Nat) (h : Word) : 0 < dhStride signed m h := by
  simp only [dhStride]; split <;> omega

/-- R112: every position is below the capacity. -/
theorem dhProbe_lt (signed : Bool) (h1 h2 : Word) {m : Nat} (hm : 0 < m) (i : Nat) : dhProbe signed h1 h2 m i < m :=
  Nat.mod_lt _ hm

theorem mem_dhProbes {signed : Bool} {h1 h2 : Word} {m k p : Nat} :
    p ∈ dhProbes signed h1 h2 m k ↔ ∃ i, i < k ∧ dhProbe signed h1 h2 m i = p := by
  simp [dhProbes]

/-- R111: the reduced first digest, as an integer. -/
theorem dhStart_cast (signed : Bool) {m : Nat} (hm : 0 < m) (h : Word) :
    (dhStart signed m h : Int) = digestValue signed h % m :=
  Int.toNat_of_nonneg (Int.emod_nonneg _ (by omega))

/-- R111: the reduced second digest with the zero substitution, as an integer. -/
theorem dhStride_cast (signed : Bool) {m : Nat} (hm : 0 < m) (h : Word) :
    (dhStride signed m h : Int) = if digestValue signed h % m = 0 then 1 else digestValue signed h % m := by
  have hn : 0 ≤ digestValue signed h % (m : Int) := Int.emod_nonneg _ (by omega)
  have e : ((digestValue signed h % (m : Int)).toNat : Int) = digestValue signed h % m := Int.toNat_of_nonneg hn
  simp only [dhStride]
  by_cases h0 : digestValue signed h % (m : Int) = 0
  · simp [h0]
  · rw [if_neg (by omega), if_neg h0, e]

/-- R112 as an integer equation. -/
theorem dhProbe_cast (signed : Bool) (h1 h2 : Word) {m : Nat} (hm : 0 < m) (i : Nat) :
    (dhProbe signed h1 h2 m i : Int) =
      (digestValue signed h1 % m +
        i * (if digestValue signed h2 % m = 0 then 1 else digestValue signed h2 % m)) % m := by
  rw [← dhStart_cast signed hm, ← dhStride_cast signed hm, dhProbe]
  push_cast; rfl

theorem dhBit_eq (m : Memory) (p : Nat) : dhBit m p = (m.read (p / 8)).getLsbD (p % 8) := rfl

/-- Everything `DHSetBit` does: bit `p` becomes 1, every other bit stays, the memory stays canonical. -/
theorem dhSetBit_spec {m : Memory} (h : m.wf = true) (p : Nat) :
    (dhSetBit m p).wf = true ∧ ∀ q, dhBit (dhSetBit m p) q = (dhBit m q || decide (q = p)) := by
  refine ⟨Memory.wf_write h _ _, fun q => ?_⟩
  have hq : q % 8 < 8 := Nat.mod_lt _ (by omega)
  rw [dhBit, dhBit, dhSetBit, Memory.read_write h]
  by_cases hd : q / 8 = p / 8
  · rw [if_pos hd, hd, BitVec.getLsbD_or]
    congr 1
    rw [BitVec.getLsbD_shiftLeft, BitVec.getLsbD_one]
    by_cases hqp : q = p
    · subst hqp; simp [hq]
    · have : q % 8 ≠ p % 8 := by omega
      simp only [hq, hqp, decide_true, decide_false]
      by_cases hlt : q % 8 < p % 8
      · simp [hlt]
      · simp; omega
  · rw [if_neg hd]
    have : q ≠ p := by intro e; exact hd (by rw [e])
    simp [this]

/-- Everything a run of `DHSetBit` does. -/
theorem foldl_dhSetBit_spec {m : Memory} (h : m.wf = true) (ps : List Nat) :
    (ps.foldl dhSetBit m).wf = true ∧ ∀ q, dhBit (ps.foldl dhSetBit m) q = (dhBit m q || decide (q ∈ ps)) := by
  induction ps generalizing m with
  | nil => exact ⟨h, fun q => by simp⟩
  | cons p ps ih =>
    obtain ⟨hw, hb⟩ := ih (dhSetBit_spec h p).1
    refine ⟨hw, fun q => ?_⟩
    rw [List.foldl_cons, hb, (dhSetBit_spec h p).2]
    simp [Bool.or_assoc]

/-- Two bytes agree when their storage bits agree. -/
theorem read_eq_of_dhBit {m n : Memory} {a : Nat} (h : ∀ b, b < 8 → dhBit m (8 * a + b) = dhBit n (8 * a + b)) :
    m.read a = n.read a := by
  apply byte_ext
  intro b hb
  have := h b hb
  rwa [dhBit, dhBit, show (8 * a + b) / 8 = a by omega, show (8 * a + b) % 8 = b by omega] at this

/-- Canonical memories are equal when all their storage bits are. -/
theorem memory_ext_dhBit {m n : Memory} (hm : m.wf = true) (hn : n.wf = true) (h : ∀ p, dhBit m p = dhBit n p) : m = n :=
  Memory.ext hm hn fun _ => read_eq_of_dhBit fun _ _ => h _

/-- Everything the insertion of a list of keys does to a DH storage. -/
theorem foldl_dhInsertKey_spec (x : Engine) {m : Memory} (h : m.wf = true) (keys : List (List Byte)) :
    (keys.foldl x.dhInsertKey m).wf = true ∧
    ∀ q, dhBit (keys.foldl x.dhInsertKey m) q = (dhBit m q || decide (∃ key ∈ keys, q ∈ x.dhKeyProbes key)) := by
  induction keys generalizing m with
  | nil => exact ⟨h, fun q => by simp⟩
  | cons key keys ih =>
    obtain ⟨hw, hb⟩ := ih (m := x.dhInsertKey m key) (foldl_dhSetBit_spec h _).1
    refine ⟨hw, fun q => ?_⟩
    rw [List.foldl_cons, hb, Engine.dhInsertKey, (foldl_dhSetBit_spec h _).2]
    simp [Bool.or_assoc]

/-! ### BW: word, positions and mask -/

/-- R142: the mixing state is a linear counter. -/
theorem mixState_eq (c : MixParams) (d : Word) (j : Nat) : mixState c d j = d + BitVec.ofNat 64 j * c.golden := by
  induction j with
  | zero => simp [mixState]
  | succ j ih =>
    rw [mixState, ih, BitVec.add_assoc]
    congr 1
    rw [BitVec.ofNat_add, BitVec.add_mul, BitVec.one_mul]

theorem bwPosition_eq (c : MixParams) (d : Word) (j : Nat) :
    bwPosition c d j = (mix c (mixState c d (j + 1))).toNat % 64 := by
  simp [bwPosition, BitVec.extractLsb'_toNat]

theorem bwPosition_lt (c : MixParams) (d : Word) (j : Nat) : bwPosition c d j < 64 := by
  rw [bwPosition_eq]; omega

theorem getLsbD_one_shiftLeft (b p : Nat) (hp : p < 64) : (1#64 <<< p).getLsbD b = decide (b = p) := by
  rw [BitVec.getLsbD_shiftLeft, BitVec.getLsbD_one]
  by_cases hb : b = p
  · subst hb; simp [hp]
  · simp only [hb, decide_false]
    by_cases hlt : b < p
    · simp [hlt]
    · have : ¬ b - p = 0 := by omega
      simp [this]

/-- R144: a bit of the mask is 1 exactly at a drawn position. -/
theorem getLsbD_bwMask (c : MixParams) (d : Word) (k b : Nat) :
    (bwMask c d k).getLsbD b = decide (∃ j, j < k ∧ b = bwPosition c d j) := by
  unfold bwMask
  induction k with
  | zero => simp
  | succ k ih =>
    rw [List.range_succ, List.foldl_append]
    simp only [List.foldl_cons, List.foldl_nil]
    rw [BitVec.getLsbD_or, ih, getLsbD_one_shiftLeft _ _ (bwPosition_lt c d k), ← Bool.decide_or, decide_eq_decide]
    constructor
    · rintro (⟨j, hj, hb⟩ | hb)
      · exact ⟨j, by omega, hb⟩
      · exact ⟨k, by omega, hb⟩
    · rintro ⟨j, hj, hb⟩
      by_cases hk : j = k
      · subst hk; exact .inr hb
      · exact .inl ⟨j, by omega, hb⟩

theorem bwIndex_eq (d : Word) {bb : Nat} (h : bb ≤ 57) : bwIndex d bb = d.toNat / 2 ^ (64 - bb) := by
  unfold bwIndex
  by_cases h0 : bb = 0
  · subst h0; rw [if_pos rfl, Nat.div_eq_of_lt]; exact d.isLt
  · rw [if_neg h0, BitVec.toNat_ushiftRight, Nat.shiftRight_eq_div_pow]

/-- R141: the index names a word of an array of 2^bb words. -/
theorem bwIndex_lt (d : Word) {bb : Nat} (h : bb ≤ 57) : bwIndex d bb < 2 ^ bb := by
  rw [bwIndex_eq d h, Nat.div_lt_iff_lt_mul (by positivity), ← Nat.pow_add, show bb + (64 - bb) = 64 by omega]
  exact d.isLt

theorem getLsbD_bwWord (m : Memory) (w b : Nat) (hb : b < 64) :
    (bwWord m w).getLsbD b = dhBit m (64 * w + b) := by
  rw [bwWord, getLsbD_memRead_eight _ _ _ hb, dhBit, show (64 * w + b) / 8 = 8 * w + b / 8 by omega,
    show (64 * w + b) % 8 = b % 8 by omega]

/-- Everything `BWWriteWord` does to the storage bits: the word's become the value's, the others stay. -/
theorem bwWriteWord_spec {m : Memory} (h : m.wf = true) (w : Nat) (v : Word) :
    (bwWriteWord m w v).wf = true ∧
    ∀ q, dhBit (bwWriteWord m w v) q = if q / 64 = w then v.getLsbD (q % 64) else dhBit m q := by
  obtain ⟨hw, hr⟩ := memWrite_spec h (8 * w) 8 v
  refine ⟨hw, fun q => ?_⟩
  rw [dhBit, dhBit, bwWriteWord, hr]
  by_cases hq : q / 64 = w
  · rw [if_pos (by omega), if_pos hq, getLsbD_byteOf _ _ _ (by omega)]
    congr 1; omega
  · rw [if_neg (by omega), if_neg hq]

/-- Everything one BW insertion does: the selected word takes the mask, the other bits stay. -/
theorem bwInsertKey_spec (x : Engine) {m : Memory} (h : m.wf = true) (key : List Byte) :
    (x.bwInsertKey m key).wf = true ∧
    ∀ q, dhBit (x.bwInsertKey m key) q =
      (dhBit m q || (decide (q / 64 = x.bwKeyWord key) && (x.bwKeyMask key).getLsbD (q % 64))) := by
  obtain ⟨hw, hb⟩ := bwWriteWord_spec h (x.bwKeyWord key) (bwWord m (x.bwKeyWord key) ||| x.bwKeyMask key)
  refine ⟨hw, fun q => ?_⟩
  rw [Engine.bwInsertKey, hb]
  by_cases hq : q / 64 = x.bwKeyWord key
  · rw [if_pos hq, BitVec.getLsbD_or, getLsbD_bwWord _ _ _ (by omega)]
    have : 64 * x.bwKeyWord key + q % 64 = q := by omega
    simp [this, hq]
  · rw [if_neg hq]; simp [hq]

/-- Everything the insertion of a list of keys does to a BW storage. -/
theorem foldl_bwInsertKey_spec (x : Engine) {m : Memory} (h : m.wf = true) (keys : List (List Byte)) :
    (keys.foldl x.bwInsertKey m).wf = true ∧
    ∀ q, dhBit (keys.foldl x.bwInsertKey m) q =
      (dhBit m q || decide (∃ key ∈ keys, q / 64 = x.bwKeyWord key ∧ (x.bwKeyMask key).getLsbD (q % 64) = true)) := by
  induction keys generalizing m with
  | nil => exact ⟨h, fun q => by simp⟩
  | cons key keys ih =>
    obtain ⟨hw, hb⟩ := ih (m := x.bwInsertKey m key) (bwInsertKey_spec x h key).1
    refine ⟨hw, fun q => ?_⟩
    rw [List.foldl_cons, hb, (bwInsertKey_spec x h key).2]
    simp [Bool.or_assoc]

/-- R147: membership is every drawn bit of the selected word being set. -/
theorem bwHasKey_iff (x : Engine) (key : List Byte) :
    x.bwHasKey key = true ↔
      ∀ b, b < 64 → (x.bwKeyMask key).getLsbD b = true → dhBit x.storage (64 * x.bwKeyWord key + b) = true := by
  rw [Engine.bwHasKey, beq_iff_eq]
  constructor
  · intro h b hb hm
    have h2 := congrArg (fun v => v.getLsbD b) h
    simp only [BitVec.getLsbD_and, hm, getLsbD_bwWord _ _ _ hb, Bool.and_true] at h2
    exact h2
  · intro h
    apply BitVec.eq_of_getLsbD_eq
    intro b hb
    rw [BitVec.getLsbD_and, getLsbD_bwWord _ _ _ hb]
    cases hm : (x.bwKeyMask key).getLsbD b
    · simp
    · simp [h b hb hm]

/-! ### Geometry -/

theorem ceilDiv_64 (n : Nat) : ceilDiv n 64 = (n + 63) / 64 := rfl
theorem ceilDiv_8 (n : Nat) : ceilDiv n 8 = (n + 7) / 8 := rfl

/-- R95: the word count is at least the requested words. -/
theorem le_nextPow2 (n : Nat) : n ≤ nextPow2 n := by
  unfold nextPow2 blockBits
  split
  · omega
  · have := (Nat.log2_lt (n := n - 1) (k := Nat.log2 (n - 1) + 1) (by omega)).1 (by omega)
    omega

/-- R95: the word count is the least power of two that is at least the requested words. -/
theorem nextPow2_le {n j : Nat} (h : n ≤ 2 ^ j) : nextPow2 n ≤ 2 ^ j := by
  unfold nextPow2
  apply Nat.pow_le_pow_right (by omega)
  unfold blockBits
  split
  · omega
  · have : Nat.log2 (n - 1) < j := (Nat.log2_lt (by omega)).2 (by omega)
    omega

theorem blockBits_le {n j : Nat} (h : n ≤ 2 ^ j) : blockBits n ≤ j :=
  (Nat.pow_le_pow_iff_right (by omega : 1 < 2)).1 (nextPow2_le h)

end Sys2Proof.Machine
end

