-- ==== Sys2Proof/Laws/State.lean ====
section
/-! SUPPORT. One lemma per field and update of the state and of an engine, true by rfl, so that no later proof unfolds a
record update. -/

namespace Sys2Proof.Machine

@[simp] theorem State.engine_dh (s : State) : s.engine .dh = s.dh := rfl
@[simp] theorem State.engine_bw (s : State) : s.engine .bw = s.bw := rfl

@[simp] theorem State.setEngine_dh (s : State) (x : Engine) : s.setEngine .dh x = { s with dh := x } := rfl
@[simp] theorem State.setEngine_bw (s : State) (x : Engine) : s.setEngine .bw x = { s with bw := x } := rfl

theorem State.engine_setEngine (s : State) (e f : EngineKind) (x : Engine) :
    (s.setEngine e x).engine f = if f = e then x else s.engine f := by
  cases e <;> cases f <;> rfl

@[simp] theorem State.engine_setEngine_same (s : State) (e : EngineKind) (x : Engine) : (s.setEngine e x).engine e = x := by
  cases e <;> rfl

@[simp] theorem State.setEngine_instances (s : State) (e : EngineKind) (x : Engine) :
    (s.setEngine e x).instances = s.instances := by cases e <;> rfl
@[simp] theorem State.setEngine_port (s : State) (e : EngineKind) (x : Engine) : (s.setEngine e x).port = s.port := by
  cases e <;> rfl
@[simp] theorem State.setEngine_responses (s : State) (e : EngineKind) (x : Engine) :
    (s.setEngine e x).responses = s.responses := by cases e <;> rfl
@[simp] theorem State.setEngine_engine (s : State) (e : EngineKind) : s.setEngine e (s.engine e) = s := by
  cases e <;> rfl

@[simp] theorem State.respond_instances (s : State) (r : Response) : (s.respond r).instances = s.instances := rfl
@[simp] theorem State.respond_dh (s : State) (r : Response) : (s.respond r).dh = s.dh := rfl
@[simp] theorem State.respond_bw (s : State) (r : Response) : (s.respond r).bw = s.bw := rfl
@[simp] theorem State.respond_port (s : State) (r : Response) : (s.respond r).port = s.port := rfl
@[simp] theorem State.respond_responses (s : State) (r : Response) : (s.respond r).responses = r :: s.responses := rfl
@[simp] theorem State.respond_engine (s : State) (r : Response) (e : EngineKind) :
    (s.respond r).engine e = s.engine e := by cases e <;> rfl
@[simp] theorem State.engine_withPort (s : State) (p : List HostEvent) (e : EngineKind) :
    ({ s with port := p } : State).engine e = s.engine e := by cases e <;> rfl

/-- Everything a performed write or command does to the machine outside its engine: the answer, and nothing else. -/
@[simp] theorem State.perform_instances (s : State) (e : EngineKind) (f : Engine → Engine) :
    (s.perform e f).instances = s.instances := by simp [State.perform]
@[simp] theorem State.perform_port (s : State) (e : EngineKind) (f : Engine → Engine) :
    (s.perform e f).port = s.port := by simp [State.perform]
@[simp] theorem State.perform_responses (s : State) (e : EngineKind) (f : Engine → Engine) :
    (s.perform e f).responses = .done :: s.responses := by simp [State.perform]
@[simp] theorem State.perform_engine (s : State) (e : EngineKind) (f : Engine → Engine) :
    (s.perform e f).engine e = f (s.engine e) := by simp [State.perform]
theorem State.perform_engine_ne (s : State) {e g : EngineKind} (h : g ≠ e) (f : Engine → Engine) :
    (s.perform e f).engine g = s.engine g := by simp [State.perform, State.engine_setEngine, h]

@[simp] theorem State.answer_instances (s : State) (v : Word) : (s.answer v).instances = s.instances := rfl
@[simp] theorem State.answer_dh (s : State) (v : Word) : (s.answer v).dh = s.dh := rfl
@[simp] theorem State.answer_bw (s : State) (v : Word) : (s.answer v).bw = s.bw := rfl
@[simp] theorem State.answer_port (s : State) (v : Word) : (s.answer v).port = s.port := rfl
@[simp] theorem State.answer_responses (s : State) (v : Word) :
    (s.answer v).responses = .value v :: s.responses := rfl
@[simp] theorem State.answer_engine (s : State) (v : Word) (e : EngineKind) : (s.answer v).engine e = s.engine e := by
  cases e <;> rfl

section Raise
variable (x : Engine) (c : ErrCode)
@[simp] theorem Engine.raise_params : (x.raise c).params = x.params := rfl
@[simp] theorem Engine.raise_sizeBits : (x.raise c).sizeBits = x.sizeBits := rfl
@[simp] theorem Engine.raise_numHashes : (x.raise c).numHashes = x.numHashes := rfl
@[simp] theorem Engine.raise_seed1 : (x.raise c).seed1 = x.seed1 := rfl
@[simp] theorem Engine.raise_seed2 : (x.raise c).seed2 = x.seed2 := rfl
@[simp] theorem Engine.raise_keyLen : (x.raise c).keyLen = x.keyLen := rfl
@[simp] theorem Engine.raise_keyCount : (x.raise c).keyCount = x.keyCount := rfl
@[simp] theorem Engine.raise_configured : (x.raise c).configured = x.configured := rfl
@[simp] theorem Engine.raise_result : (x.raise c).result = x.result := rfl
@[simp] theorem Engine.raise_err : (x.raise c).err = c := rfl
@[simp] theorem Engine.raise_cfg : (x.raise c).cfg = x.cfg := rfl
@[simp] theorem Engine.raise_keyBuf : (x.raise c).keyBuf = x.keyBuf := rfl
@[simp] theorem Engine.raise_storage : (x.raise c).storage = x.storage := rfl
end Raise

section Inserted
variable (x : Engine) (m : Memory)
@[simp] theorem Engine.inserted_params : (x.inserted m).params = x.params := rfl
@[simp] theorem Engine.inserted_sizeBits : (x.inserted m).sizeBits = x.sizeBits := rfl
@[simp] theorem Engine.inserted_numHashes : (x.inserted m).numHashes = x.numHashes := rfl
@[simp] theorem Engine.inserted_seed1 : (x.inserted m).seed1 = x.seed1 := rfl
@[simp] theorem Engine.inserted_seed2 : (x.inserted m).seed2 = x.seed2 := rfl
@[simp] theorem Engine.inserted_keyLen : (x.inserted m).keyLen = x.keyLen := rfl
@[simp] theorem Engine.inserted_keyCount : (x.inserted m).keyCount = x.keyCount := rfl
@[simp] theorem Engine.inserted_configured : (x.inserted m).configured = x.configured := rfl
@[simp] theorem Engine.inserted_result : (x.inserted m).result = x.result := rfl
@[simp] theorem Engine.inserted_err : (x.inserted m).err = .ok := rfl
@[simp] theorem Engine.inserted_cfg : (x.inserted m).cfg = x.cfg := rfl
@[simp] theorem Engine.inserted_keyBuf : (x.inserted m).keyBuf = x.keyBuf := rfl
@[simp] theorem Engine.inserted_storage : (x.inserted m).storage = m := rfl
end Inserted

section Latch
variable (x : Engine) (c : Cfg)
@[simp] theorem Engine.latch_params : (x.latch c).params = x.params := rfl
@[simp] theorem Engine.latch_sizeBits : (x.latch c).sizeBits = x.sizeBits := rfl
@[simp] theorem Engine.latch_numHashes : (x.latch c).numHashes = x.numHashes := rfl
@[simp] theorem Engine.latch_seed1 : (x.latch c).seed1 = x.seed1 := rfl
@[simp] theorem Engine.latch_seed2 : (x.latch c).seed2 = x.seed2 := rfl
@[simp] theorem Engine.latch_keyLen : (x.latch c).keyLen = x.keyLen := rfl
@[simp] theorem Engine.latch_keyCount : (x.latch c).keyCount = x.keyCount := rfl
@[simp] theorem Engine.latch_configured : (x.latch c).configured = true := rfl
@[simp] theorem Engine.latch_result : (x.latch c).result = false := rfl
@[simp] theorem Engine.latch_err : (x.latch c).err = .ok := rfl
@[simp] theorem Engine.latch_cfg : (x.latch c).cfg = c := rfl
@[simp] theorem Engine.latch_keyBuf : (x.latch c).keyBuf = x.keyBuf := rfl
@[simp] theorem Engine.latch_storage : (x.latch c).storage = [] := rfl
end Latch

section SetResult
variable (x : Engine) (r : Bool)
@[simp] theorem Engine.setResult_params : (x.setResult r).params = x.params := rfl
@[simp] theorem Engine.setResult_sizeBits : (x.setResult r).sizeBits = x.sizeBits := rfl
@[simp] theorem Engine.setResult_numHashes : (x.setResult r).numHashes = x.numHashes := rfl
@[simp] theorem Engine.setResult_seed1 : (x.setResult r).seed1 = x.seed1 := rfl
@[simp] theorem Engine.setResult_seed2 : (x.setResult r).seed2 = x.seed2 := rfl
@[simp] theorem Engine.setResult_keyLen : (x.setResult r).keyLen = x.keyLen := rfl
@[simp] theorem Engine.setResult_keyCount : (x.setResult r).keyCount = x.keyCount := rfl
@[simp] theorem Engine.setResult_configured : (x.setResult r).configured = x.configured := rfl
@[simp] theorem Engine.setResult_result : (x.setResult r).result = r := rfl
@[simp] theorem Engine.setResult_err : (x.setResult r).err = x.err := rfl
@[simp] theorem Engine.setResult_cfg : (x.setResult r).cfg = x.cfg := rfl
@[simp] theorem Engine.setResult_keyBuf : (x.setResult r).keyBuf = x.keyBuf := rfl
@[simp] theorem Engine.setResult_storage : (x.setResult r).storage = x.storage := rfl
end SetResult

section SetSeed2
variable (x : Engine) (v : Word)
@[simp] theorem Engine.setSeed2_dh : Engine.setSeed2 .dh v x = { x with seed2 := v } := rfl
@[simp] theorem Engine.setSeed2_bw : Engine.setSeed2 .bw v x = x := rfl
end SetSeed2

end Sys2Proof.Machine
end

