-- ==== Sys2Proof/Laws/Engine.lean ====
section
/-! SUPPORT. What each command does to its engine, one lemma per case of the command, and what its operands are. -/

namespace Sys2Proof.Machine

/-! ### Operands -/

/-- The three cases of the checks every key command makes first (R194, R195, R198). -/
theorem Engine.keyCommandError_eq_none {x : Engine} (h1 : x.configured = true)
    (h2 : x.keyLen.toNat ≤ x.params.keybufBytes) : x.keyCommandError = none := by
  rw [Engine.keyCommandError, if_neg (by simp [h1]), if_neg (by omega)]

theorem Engine.keyCommandError_notConfigured {x : Engine} (h : x.configured = false) :
    x.keyCommandError = some .notConfigured := by
  rw [Engine.keyCommandError, if_pos h]

theorem Engine.keyCommandError_keyTooLong {x : Engine} (h1 : x.configured = true)
    (h2 : x.params.keybufBytes < x.keyLen.toNat) : x.keyCommandError = some .keyTooLong := by
  rw [Engine.keyCommandError, if_neg (by simp [h1]), if_pos h2]

/-- When the checks pass the engine is configured and the key fits. -/
theorem Engine.of_keyCommandError_eq_none {x : Engine} (h : x.keyCommandError = none) :
    x.configured = true ∧ x.keyLen.toNat ≤ x.params.keybufBytes := by
  unfold Engine.keyCommandError at h
  split_ifs at h with h1 h2
  exact ⟨by simpa using h1, by omega⟩

/-- A failed check is never the outcome OK. -/
theorem Engine.keyCommandError_ne_ok {x : Engine} {c : ErrCode} (h : x.keyCommandError = some c) : c ≠ .ok := by
  unfold Engine.keyCommandError at h
  split_ifs at h <;> cases h <;> simp

@[simp] theorem Engine.length_keyBytes (x : Engine) (o n : Nat) : (x.keyBytes o n).length = n := by
  simp [Engine.keyBytes]

theorem Engine.getElem_keyBytes (x : Engine) (o n j : Nat) (h : j < (x.keyBytes o n).length) :
    (x.keyBytes o n)[j] = x.keyBuf.read (o + j) := by simp [Engine.keyBytes]

/-- The key has `KEY_LEN` bytes (R76). -/
@[simp] theorem Engine.length_key (x : Engine) : x.key.length = x.keyLen.toNat := by simp [Engine.key]

theorem Engine.getElem_key (x : Engine) (j : Nat) (h : j < x.key.length) : x.key[j] = x.keyBuf.read j := by
  have := Engine.getElem_keyBytes x 0 x.keyLen.toNat j (by simpa using h)
  simpa [Engine.key] using this

/-- What one record of the list leaves to parse (R77). -/
theorem Engine.parseFrom_succ (x : Engine) (len count o : Nat) :
    x.parseFrom len (count + 1) o =
      if len < o + 2 ∨ len < o + 2 + ((x.keyBuf.read o).toNat + 256 * (x.keyBuf.read (o + 1)).toNat) then none
      else (x.parseFrom len count (o + 2 + ((x.keyBuf.read o).toNat + 256 * (x.keyBuf.read (o + 1)).toNat))).map
        fun keys => x.keyBytes (o + 2) ((x.keyBuf.read o).toNat + 256 * (x.keyBuf.read (o + 1)).toNat) :: keys := by
  rw [Engine.parseFrom]
  dsimp only
  split_ifs <;> first | rfl | (exfalso; omega)

/-! ### CONFIGURE -/

/-- R90: the arguments are invalid exactly when one of them is not positive. -/
theorem Engine.invalidArgs_eq_true {x : Engine} :
    x.invalidArgs = true ↔ x.sizeBits.toInt ≤ 0 ∨ x.numHashes.toInt ≤ 0 := by
  rw [Engine.invalidArgs, Bool.or_eq_true, decide_eq_true_eq, decide_eq_true_eq]
  rfl

theorem Engine.invalidArgs_eq_false {x : Engine} :
    x.invalidArgs = false ↔ 0 < x.sizeBits.toInt ∧ 0 < x.numHashes.toInt := by
  rw [Bool.eq_false_iff, ne_eq, Engine.invalidArgs_eq_true]; omega

theorem toInt_lt_two_pow (w : Word) : w.toInt < 2 ^ 63 := by simpa using BitVec.toInt_lt (x := w)

theorem Engine.dhConfigure_invalid {x : Engine} (h : x.invalidArgs = true) :
    x.dhConfigure = x.raise .invalidConfiguration := by rw [Engine.dhConfigure, if_pos h]

theorem Engine.dhConfigure_exceeded {x : Engine} (h : x.invalidArgs = false)
    (hx : (x.params.maxDhBits : Int) < x.sizeBits.toInt ∨ (x.params.maxK : Int) < x.numHashes.toInt) :
    x.dhConfigure = x.raise .capacityExceeded := by
  rw [Engine.dhConfigure, if_neg (by simp [h]), if_pos]
  simp only [Engine.sizeBitsArg, Engine.numHashesArg]; omega

theorem Engine.dhConfigure_ok {x : Engine} (h : x.invalidArgs = false)
    (h1 : x.sizeBits.toInt ≤ x.params.maxDhBits) (h2 : x.numHashes.toInt ≤ x.params.maxK) :
    x.dhConfigure = x.latch (x.dhCfg x.sizeBits.toInt.toNat x.numHashes.toInt.toNat) := by
  rw [Engine.dhConfigure, if_neg (by simp [h]), if_neg]
  · rfl
  · simp only [Engine.sizeBitsArg, Engine.numHashesArg]; omega

theorem Engine.bwConfigure_invalid {x : Engine} (h : x.invalidArgs = true) :
    x.bwConfigure = x.raise .invalidConfiguration := by rw [Engine.bwConfigure, if_pos h]

theorem Engine.bwConfigure_exceeded {x : Engine} (h : x.invalidArgs = false)
    (hx : (x.params.maxBwWords : Int) < (x.sizeBits.toInt + 63) / 64 ∨ (x.params.maxK : Int) < x.numHashes.toInt) :
    x.bwConfigure = x.raise .capacityExceeded := by
  rw [Engine.bwConfigure, if_neg (by simp [h]), if_pos]
  have := Engine.invalidArgs_eq_false.1 h
  simp only [Engine.sizeBitsArg, Engine.numHashesArg, ceilDiv_64]; omega

theorem Engine.bwConfigure_ok {x : Engine} (h : x.invalidArgs = false)
    (h1 : (x.sizeBits.toInt + 63) / 64 ≤ x.params.maxBwWords) (h2 : x.numHashes.toInt ≤ x.params.maxK) :
    x.bwConfigure = x.latch (x.bwCfg x.sizeBits.toInt.toNat x.numHashes.toInt.toNat) := by
  have := Engine.invalidArgs_eq_false.1 h
  rw [Engine.bwConfigure, if_neg (by simp [h]), if_neg]
  · rfl
  · simp only [Engine.sizeBitsArg, Engine.numHashesArg, ceilDiv_64]; omega

/-- Everything CONFIGURE on a DH engine can do. -/
theorem Engine.dhConfigure_cases (x : Engine) :
    (x.invalidArgs = true ∧ x.dhConfigure = x.raise .invalidConfiguration) ∨
    (x.invalidArgs = false ∧ x.dhConfigure = x.raise .capacityExceeded) ∨
    (x.invalidArgs = false ∧ x.sizeBits.toInt ≤ x.params.maxDhBits ∧ x.numHashes.toInt ≤ x.params.maxK ∧
      x.dhConfigure = x.latch (x.dhCfg x.sizeBits.toInt.toNat x.numHashes.toInt.toNat)) := by
  cases h : x.invalidArgs
  · by_cases hx : (x.params.maxDhBits : Int) < x.sizeBits.toInt ∨ (x.params.maxK : Int) < x.numHashes.toInt
    · exact .inr (.inl ⟨rfl, Engine.dhConfigure_exceeded h hx⟩)
    · exact .inr (.inr ⟨rfl, by omega, by omega, Engine.dhConfigure_ok h (by omega) (by omega)⟩)
  · exact .inl ⟨rfl, Engine.dhConfigure_invalid h⟩

/-- Everything CONFIGURE on a BW engine can do. -/
theorem Engine.bwConfigure_cases (x : Engine) :
    (x.invalidArgs = true ∧ x.bwConfigure = x.raise .invalidConfiguration) ∨
    (x.invalidArgs = false ∧ x.bwConfigure = x.raise .capacityExceeded) ∨
    (x.invalidArgs = false ∧ (x.sizeBits.toInt + 63) / 64 ≤ x.params.maxBwWords ∧
      x.numHashes.toInt ≤ x.params.maxK ∧
      x.bwConfigure = x.latch (x.bwCfg x.sizeBits.toInt.toNat x.numHashes.toInt.toNat)) := by
  cases h : x.invalidArgs
  · by_cases hx : (x.params.maxBwWords : Int) < (x.sizeBits.toInt + 63) / 64 ∨ (x.params.maxK : Int) < x.numHashes.toInt
    · exact .inr (.inl ⟨rfl, Engine.bwConfigure_exceeded h hx⟩)
    · exact .inr (.inr ⟨rfl, by omega, by omega, Engine.bwConfigure_ok h (by omega) (by omega)⟩)
  · exact .inl ⟨rfl, Engine.bwConfigure_invalid h⟩

/-- The fields of a latched DH configuration as numbers (R93). -/
theorem Engine.dhCfg_toNat (x : Engine) {m k : Nat} (hm : m < 2 ^ 63) (hk : k < 2 ^ 63) :
    (x.dhCfg m k).m.toNat = m ∧ (x.dhCfg m k).k.toNat = k ∧ (x.dhCfg m k).rb.toNat = (m + 7) / 8 := by
  simp only [Engine.dhCfg, BitVec.toNat_ofNat, ceilDiv_8]
  refine ⟨by omega, by omega, by omega⟩

/-- The fields of a latched BW configuration as numbers (R95, R97). -/
theorem Engine.bwCfg_toNat (x : Engine) {n k : Nat} (hn : n < 2 ^ 63) (hk : k < 2 ^ 63) :
    (x.bwCfg n k).wc.toNat = nextPow2 ((n + 63) / 64) ∧ (x.bwCfg n k).bb.toNat = blockBits ((n + 63) / 64) ∧
    (x.bwCfg n k).bb.toNat ≤ 57 ∧ (x.bwCfg n k).m.toNat = (x.bwCfg n k).wc.toNat * 64 ∧
    (x.bwCfg n k).rb.toNat = (x.bwCfg n k).wc.toNat * 8 ∧ (x.bwCfg n k).k.toNat = k := by
  have hw : (n + 63) / 64 ≤ 2 ^ 57 := by omega
  have h1 := nextPow2_le hw
  have h2 := blockBits_le hw
  simp only [Engine.bwCfg, BitVec.toNat_ofNat, ceilDiv_64]
  refine ⟨by omega, by omega, by omega, by omega, by omega, by omega⟩

/-! ### The key commands: the error case and the effect -/

section KeyCommands
variable {x : Engine}

theorem Engine.dhInsert_error {c : ErrCode} (h : x.keyCommandError = some c) : x.dhInsert = x.raise c := by
  rw [Engine.dhInsert, h]
theorem Engine.dhInsert_ok (h : x.keyCommandError = none) :
    x.dhInsert = x.inserted (x.dhInsertKey x.storage x.key) := by rw [Engine.dhInsert, h]
theorem Engine.dhContains_error {c : ErrCode} (h : x.keyCommandError = some c) :
    x.dhContains = (x.setResult false).raise c := by rw [Engine.dhContains, h]
theorem Engine.dhContains_ok (h : x.keyCommandError = none) :
    x.dhContains = (x.setResult (x.dhHasKey x.key)).raise .ok := by rw [Engine.dhContains, h]
theorem Engine.dhBulkInsert_error {c : ErrCode} (h : x.keyCommandError = some c) : x.dhBulkInsert = x.raise c := by
  rw [Engine.dhBulkInsert, h]
theorem Engine.dhBulkInsert_format (h : x.keyCommandError = none) (hr : x.records = none) :
    x.dhBulkInsert = x.raise .keyFormat := by rw [Engine.dhBulkInsert, h]; simp only [hr]
theorem Engine.dhBulkInsert_ok {keys : List (List Byte)} (h : x.keyCommandError = none) (hr : x.records = some keys) :
    x.dhBulkInsert = x.inserted (keys.foldl x.dhInsertKey x.storage) := by
  rw [Engine.dhBulkInsert, h]; simp only [hr]

theorem Engine.bwInsert_error {c : ErrCode} (h : x.keyCommandError = some c) : x.bwInsert = x.raise c := by
  rw [Engine.bwInsert, h]
theorem Engine.bwInsert_ok (h : x.keyCommandError = none) :
    x.bwInsert = x.inserted (x.bwInsertKey x.storage x.key) := by rw [Engine.bwInsert, h]
theorem Engine.bwContains_error {c : ErrCode} (h : x.keyCommandError = some c) :
    x.bwContains = (x.setResult false).raise c := by rw [Engine.bwContains, h]
theorem Engine.bwContains_ok (h : x.keyCommandError = none) :
    x.bwContains = (x.setResult (x.bwHasKey x.key)).raise .ok := by rw [Engine.bwContains, h]
theorem Engine.bwBulkInsert_error {c : ErrCode} (h : x.keyCommandError = some c) : x.bwBulkInsert = x.raise c := by
  rw [Engine.bwBulkInsert, h]
theorem Engine.bwBulkInsert_format (h : x.keyCommandError = none) (hr : x.records = none) :
    x.bwBulkInsert = x.raise .keyFormat := by rw [Engine.bwBulkInsert, h]; simp only [hr]
theorem Engine.bwBulkInsert_ok {keys : List (List Byte)} (h : x.keyCommandError = none) (hr : x.records = some keys) :
    x.bwBulkInsert = x.inserted (keys.foldl x.bwInsertKey x.storage) := by
  rw [Engine.bwBulkInsert, h]; simp only [hr]

end KeyCommands

/-- Everything a key command can do: raise one error, set the result (to 0 with an error), or insert some keys. -/
inductive KeyCommandCase (insertKey : Engine → Memory → List Byte → Memory) (x : Engine) : Engine → Prop where
  | raised (c : ErrCode) (h : c ≠ .ok) : KeyCommandCase insertKey x (x.raise c)
  | inserted (keys : List (List Byte)) (h : x.keyCommandError = none) :
      KeyCommandCase insertKey x (x.inserted (keys.foldl (insertKey x) x.storage))

theorem Engine.dhInsert_cases (x : Engine) : KeyCommandCase Engine.dhInsertKey x x.dhInsert := by
  cases h : x.keyCommandError with
  | none => rw [Engine.dhInsert_ok h]; exact .inserted [x.key] h
  | some c => rw [Engine.dhInsert_error h]; exact .raised c (Engine.keyCommandError_ne_ok h)

theorem Engine.dhBulkInsert_cases (x : Engine) : KeyCommandCase Engine.dhInsertKey x x.dhBulkInsert := by
  cases h : x.keyCommandError with
  | none =>
    cases hr : x.records with
    | none => rw [Engine.dhBulkInsert_format h hr]; exact .raised _ (by simp)
    | some keys => rw [Engine.dhBulkInsert_ok h hr]; exact .inserted keys h
  | some c => rw [Engine.dhBulkInsert_error h]; exact .raised c (Engine.keyCommandError_ne_ok h)

theorem Engine.bwInsert_cases (x : Engine) : KeyCommandCase Engine.bwInsertKey x x.bwInsert := by
  cases h : x.keyCommandError with
  | none => rw [Engine.bwInsert_ok h]; exact .inserted [x.key] h
  | some c => rw [Engine.bwInsert_error h]; exact .raised c (Engine.keyCommandError_ne_ok h)

theorem Engine.bwBulkInsert_cases (x : Engine) : KeyCommandCase Engine.bwInsertKey x x.bwBulkInsert := by
  cases h : x.keyCommandError with
  | none =>
    cases hr : x.records with
    | none => rw [Engine.bwBulkInsert_format h hr]; exact .raised _ (by simp)
    | some keys => rw [Engine.bwBulkInsert_ok h hr]; exact .inserted keys h
  | some c => rw [Engine.bwBulkInsert_error h]; exact .raised c (Engine.keyCommandError_ne_ok h)

/-- CONTAINS writes a result and an outcome, and nothing else. -/
theorem Engine.dhContains_cases (x : Engine) :
    ∃ r c, x.dhContains = (x.setResult r).raise c ∧ (x.configured = false → r = false) := by
  cases h : x.keyCommandError with
  | none =>
    exact ⟨_, _, Engine.dhContains_ok h, fun hc => by rw [(Engine.of_keyCommandError_eq_none h).1] at hc; cases hc⟩
  | some c => exact ⟨_, _, Engine.dhContains_error h, fun _ => rfl⟩

theorem Engine.bwContains_cases (x : Engine) :
    ∃ r c, x.bwContains = (x.setResult r).raise c ∧ (x.configured = false → r = false) := by
  cases h : x.keyCommandError with
  | none =>
    exact ⟨_, _, Engine.bwContains_ok h, fun hc => by rw [(Engine.of_keyCommandError_eq_none h).1] at hc; cases hc⟩
  | some c => exact ⟨_, _, Engine.bwContains_error h, fun _ => rfl⟩

end Sys2Proof.Machine
end

