-- ==== Sys2Proof/Laws/Step.lean ====
section
/-! SUPPORT. What a step can do, said once: an instruction and a host event each act on one engine and give one answer (a reset none),
and every step is such an event, an idle one or a stop. -/

namespace Sys2Proof.Machine

/-- What an instruction does to its engine. -/
def instrEffect : Instr → Engine → Engine
  | .dhConfigure, x => x.dhConfigure
  | .dhInsert, x => x.dhInsert
  | .dhContains, x => x.dhContains
  | .dhBulkInsert, x => x.dhBulkInsert
  | .bwConfigure, x => x.bwConfigure
  | .bwInsert, x => x.bwInsert
  | .bwContains, x => x.bwContains
  | .bwBulkInsert, x => x.bwBulkInsert
  | .writeSizeBits _ v, x => { x with sizeBits := v }
  | .writeNumHashes _ v, x => { x with numHashes := v }
  | .writeSeed1 _ v, x => { x with seed1 := v }
  | .writeSeed2 e v, x => x.setSeed2 e v
  | .writeKeyLen _ v, x => { x with keyLen := v }
  | .writeKeyCount _ v, x => { x with keyCount := v }
  | .writeKeyBuf _ i n v, x => if i % n.bytes = 0 then x.writeKey i n.bytes v else x
  | .readId _, x | .readStatus _, x | .readCapacityBits _, x | .readKEff _, x | .readRawBytes _, x
  | .readBlockBits _, x | .readRaw _ _ _, x => x

/-- What an instruction answers. -/
def instrAnswer : Instr → Engine → Response
  | .dhConfigure, _ | .dhInsert, _ | .dhContains, _ | .dhBulkInsert, _ => .done
  | .bwConfigure, _ | .bwInsert, _ | .bwContains, _ | .bwBulkInsert, _ => .done
  | .writeSizeBits _ _, _ | .writeNumHashes _ _, _ | .writeSeed1 _ _, _ | .writeSeed2 _ _, _ => .done
  | .writeKeyLen _ _, _ | .writeKeyCount _ _, _ => .done
  | .writeKeyBuf _ i n _, _ => if i % n.bytes = 0 then .done else .busError
  | .readId e, x => .value (x.readReg e .id)
  | .readStatus e, x => .value (x.readReg e .status)
  | .readCapacityBits e, x => .value (x.readReg e .capacityBits)
  | .readKEff e, x => .value (x.readReg e .kEff)
  | .readRawBytes e, x => .value (x.readReg e .rawBytes)
  | .readBlockBits e, x => .value (x.readReg e .blockBits)
  | .readRaw _ a n, x => if a % n.bytes = 0 then .value (x.readRaw a n.bytes) else .busError

/-- Every instruction answers a next state: its effect on its engine, one answer, and nothing else. -/
theorem exec_eq (i : Instr) (s : State) :
    exec i s = .next ((s.setEngine (instrTarget i) (instrEffect i (s.engine (instrTarget i)))).respond
      (instrAnswer i (s.engine (instrTarget i)))) := by
  cases i
  case writeKeyBuf e k n v =>
    simp only [exec, execWriteKeyBuf, instrTarget, instrEffect, instrAnswer]
    split_ifs <;> simp [State.perform]
  case readRaw e a n =>
    simp only [exec, execReadRaw, instrTarget, instrEffect, instrAnswer]
    split_ifs <;> simp [State.answer]
  case readId e | readStatus e | readCapacityBits e | readKEff e | readRawBytes e | readBlockBits e =>
    cases e <;> rfl
  all_goals rfl

/-- What an access that is no instruction does to its engine. -/
def otherEffect : OtherAccess → Engine → Engine
  | .illegalCommand _, x => x.raise .illegalCommand
  | .readRegister _ _, x | .readKeyBuf _ _ _, x | .readZero _, x | .ignoreWrite _, x | .busError _, x => x

/-- What an access that is no instruction answers. -/
def otherAnswer : OtherAccess → Engine → Response
  | .illegalCommand _, _ => .done
  | .readRegister e r, x => .value (x.readReg e r)
  | .readKeyBuf _ i n, x => .value (x.readKey i n.bytes)
  | .readZero _, _ => .value 0
  | .ignoreWrite _, _ => .done
  | .busError _, _ => .busError

theorem serve_eq (o : OtherAccess) (s : State) :
    serve o s = (s.setEngine (otherTarget o) (otherEffect o (s.engine (otherTarget o)))).respond
      (otherAnswer o (s.engine (otherTarget o))) := by
  cases o <;> simp [serve, otherTarget, otherEffect, otherAnswer, State.perform, State.answer]

/-- Whether an event reaches its engine: the engine exists and an access lies in its window. -/
def reaches (ev : HostEvent) (s : State) : Bool :=
  match ev with
  | .access a => hasEngine s.instances a.engine && (s.engine a.engine).inWindow a.offset
  | .reset e => hasEngine s.instances e

/-- What an event does to its engine. -/
def eventEffect (ev : HostEvent) (x : Engine) : Engine :=
  match ev with
  | .reset _ => x.reset
  | .access a =>
    match decode a with
    | .ok i => instrEffect i x
    | .error o => otherEffect o x

/-- What an event answers. -/
def eventAnswers (ev : HostEvent) (x : Engine) : List Response :=
  match ev with
  | .reset _ => []
  | .access a =>
    match decode a with
    | .ok i => [instrAnswer i x]
    | .error o => [otherAnswer o x]

/-- The state after the event `ev` at the head of a port whose other events are `rest`. -/
def afterEvent (s : State) (ev : HostEvent) (rest : List HostEvent) : State :=
  { s.setEngine (eventTarget ev) (eventEffect ev (s.engine (eventTarget ev))) with
    port := rest, responses := eventAnswers ev (s.engine (eventTarget ev)) ++ s.responses }

@[simp] theorem afterEvent_port (s : State) (ev : HostEvent) (rest : List HostEvent) :
    (afterEvent s ev rest).port = rest := rfl
@[simp] theorem afterEvent_responses (s : State) (ev : HostEvent) (rest : List HostEvent) :
    (afterEvent s ev rest).responses = eventAnswers ev (s.engine (eventTarget ev)) ++ s.responses := rfl
@[simp] theorem afterEvent_instances (s : State) (ev : HostEvent) (rest : List HostEvent) :
    (afterEvent s ev rest).instances = s.instances := by simp [afterEvent]
theorem afterEvent_engine (s : State) (ev : HostEvent) (rest : List HostEvent) (e : EngineKind) :
    (afterEvent s ev rest).engine e =
      if e = eventTarget ev then eventEffect ev (s.engine e) else s.engine e := by
  have h : (afterEvent s ev rest).engine e =
      (s.setEngine (eventTarget ev) (eventEffect ev (s.engine (eventTarget ev)))).engine e := by cases e <;> rfl
  rw [h, State.engine_setEngine]
  split_ifs with he
  · rw [he]
  · rfl

theorem step_idle {s : State} (h : s.port = []) : step s = .next s := by simp [step, fetch, h]

/-- A step performs the oldest event when it reaches its engine, and stops otherwise. -/
theorem step_event {s : State} {ev : HostEvent} {rest : List HostEvent} (h : s.port = ev :: rest) :
    (reaches ev s = true → step s = .next (afterEvent s ev rest)) ∧
    (reaches ev s = false → ∃ r, step s = .fault r) := by
  cases ev with
  | reset e =>
    simp only [reaches, step, fetch, h, fetchEvent]
    constructor
    · intro hr
      rw [if_pos hr]
      cases e <;> rfl
    · intro hr
      rw [if_neg (by simp [hr])]
      exact ⟨_, rfl⟩
  | access a =>
    simp only [reaches, step, fetch, h, fetchEvent, State.engine_withPort]
    constructor
    · intro hr
      rw [Bool.and_eq_true] at hr
      rw [if_pos hr.1, if_pos hr.2]
      obtain ⟨h1, h2⟩ := decode_target a
      cases hd : decode a with
      | ok i =>
        simp only [exec_eq, h1 i hd, afterEvent, eventTarget, eventEffect, eventAnswers, hd, State.engine_withPort]
        cases a.engine <;> rfl
      | error o =>
        simp only [serve_eq, h2 o hd, afterEvent, eventTarget, eventEffect, eventAnswers, hd, State.engine_withPort]
        cases a.engine <;> rfl
    · intro hr
      rw [Bool.and_eq_false_iff] at hr
      by_cases hp : hasEngine s.instances a.engine = true
      · rw [if_pos hp, if_neg (by rcases hr with hr | hr <;> simp_all)]
        exact ⟨_, rfl⟩
      · rw [if_neg hp]
        exact ⟨_, rfl⟩

/-- Everything a step that answers a next state can have done. -/
theorem step_cases {s t : State} (h : step s = .next t) :
    (s.port = [] ∧ t = s) ∨ ∃ ev rest, s.port = ev :: rest ∧ reaches ev s = true ∧ t = afterEvent s ev rest := by
  cases hp : s.port with
  | nil => rw [step_idle hp] at h; cases h; exact .inl ⟨rfl, rfl⟩
  | cons ev rest =>
    obtain ⟨h1, h2⟩ := step_event hp
    cases hr : reaches ev s with
    | true => rw [h1 hr] at h; cases h; exact .inr ⟨ev, rest, rfl, hr, rfl⟩
    | false => obtain ⟨r, hr⟩ := h2 hr; rw [hr] at h; cases h

end Sys2Proof.Machine
end

