-- ==== Sys2Proof/Laws/Events.lean ====
section
/-! SUPPORT. What one host event can do to its engine, as a case list that the whole-machine rules go through, with each command's own
case lemma of Laws/Engine.lean behind it; and that the reset parameters lie in R7's ranges. -/

namespace Sys2Proof.Machine

/-! ### The commands of both kinds, by kind -/

def Engine.configureBy : EngineKind → Engine → Engine
  | .dh => Engine.dhConfigure
  | .bw => Engine.bwConfigure

def Engine.insertBy : EngineKind → Engine → Engine
  | .dh => Engine.dhInsert
  | .bw => Engine.bwInsert

def Engine.containsBy : EngineKind → Engine → Engine
  | .dh => Engine.dhContains
  | .bw => Engine.bwContains

def Engine.bulkInsertBy : EngineKind → Engine → Engine
  | .dh => Engine.dhBulkInsert
  | .bw => Engine.bwBulkInsert

def insertKeyOf : EngineKind → Engine → Memory → List Byte → Memory
  | .dh => Engine.dhInsertKey
  | .bw => Engine.bwInsertKey

theorem exec_configureOf (e : EngineKind) (s : State) :
    exec (configureOf e) s = .next (s.perform e (Engine.configureBy e)) := by cases e <;> rfl
theorem exec_insertOf (e : EngineKind) (s : State) :
    exec (insertOf e) s = .next (s.perform e (Engine.insertBy e)) := by cases e <;> rfl
theorem exec_containsOf (e : EngineKind) (s : State) :
    exec (containsOf e) s = .next (s.perform e (Engine.containsBy e)) := by cases e <;> rfl
theorem exec_bulkInsertOf (e : EngineKind) (s : State) :
    exec (bulkInsertOf e) s = .next (s.perform e (Engine.bulkInsertBy e)) := by cases e <;> rfl

theorem Engine.insertBy_cases (e : EngineKind) (x : Engine) : KeyCommandCase (insertKeyOf e) x (x.insertBy e) := by
  cases e
  · exact x.dhInsert_cases
  · exact x.bwInsert_cases

theorem Engine.bulkInsertBy_cases (e : EngineKind) (x : Engine) :
    KeyCommandCase (insertKeyOf e) x (x.bulkInsertBy e) := by
  cases e
  · exact x.dhBulkInsert_cases
  · exact x.bwBulkInsert_cases

theorem Engine.containsBy_cases (e : EngineKind) (x : Engine) :
    ∃ r c, x.containsBy e = (x.setResult r).raise c ∧ (x.configured = false → r = false) := by
  cases e
  · exact x.dhContains_cases
  · exact x.bwContains_cases

theorem Engine.configureBy_cases (e : EngineKind) (x : Engine) :
    (∃ c, c ≠ .ok ∧ x.configureBy e = x.raise c) ∨ ∃ c, x.configureBy e = x.latch c := by
  cases e
  · rcases x.dhConfigure_cases with ⟨_, h⟩ | ⟨_, h⟩ | ⟨_, _, _, h⟩
    · exact .inl ⟨_, by simp, h⟩
    · exact .inl ⟨_, by simp, h⟩
    · exact .inr ⟨_, h⟩
  · rcases x.bwConfigure_cases with ⟨_, h⟩ | ⟨_, h⟩ | ⟨_, _, _, h⟩
    · exact .inl ⟨_, by simp, h⟩
    · exact .inl ⟨_, by simp, h⟩
    · exact .inr ⟨_, h⟩

/-- The frame of INSERT and BULK_INSERT. -/
theorem KeyCommandCase.frame {f : Engine → Memory → List Byte → Memory} {x y : Engine} (h : KeyCommandCase f x y) :
    y.params = x.params ∧ y.configured = x.configured ∧ y.result = x.result ∧ y.cfg = x.cfg ∧
    y.keyBuf = x.keyBuf ∧ y.seed2 = x.seed2 := by
  cases h <;> exact ⟨rfl, rfl, rfl, rfl, rfl, rfl⟩

/-- Insertion by either kind sets storage bits, clears none, and keeps the canonical form. -/
theorem foldl_insertKeyOf_spec (e : EngineKind) (x : Engine) {m : Memory} (h : m.wf = true) (keys : List (List Byte)) :
    (keys.foldl (insertKeyOf e x) m).wf = true ∧
    ∀ p, dhBit m p = true → dhBit (keys.foldl (insertKeyOf e x) m) p = true := by
  cases e
  · obtain ⟨h1, h2⟩ := foldl_dhInsertKey_spec x h keys
    exact ⟨h1, fun p hp => by rw [insertKeyOf, h2, hp]; rfl⟩
  · obtain ⟨h1, h2⟩ := foldl_bwInsertKey_spec x h keys
    exact ⟨h1, fun p hp => by rw [insertKeyOf, h2, hp]; rfl⟩

/-- Everything a host write of the key buffer does (R56). -/
theorem Engine.writeKey_spec (x : Engine) (h : x.keyBuf.wf = true) (i n : Nat) (v : Word) :
    (x.writeKey i n v).keyBuf.wf = true ∧
    ∀ b, (x.writeKey i n v).keyBuf.read b =
      if i ≤ b ∧ b < i + n ∧ b < x.params.keybufBytes then byteOf v (b - i) else x.keyBuf.read b :=
  storeKeyBytes_spec h x.params.keybufBytes i v n

/-! ### The cases of an event -/

/-- Everything the event `ev` can do to the engine of kind `e` in state `x`. -/
inductive EventCase (e : EngineKind) (ev : HostEvent) (x : Engine) : Engine → Prop where
  | reset (h : ev = .reset e) : EventCase e ev x x.reset
  | unchanged : EventCase e ev x x
  | register (y : Engine)
      (h : y.params = x.params ∧ y.configured = x.configured ∧ y.result = x.result ∧ y.err = x.err ∧
        y.cfg = x.cfg ∧ y.keyBuf = x.keyBuf ∧ y.storage = x.storage)
      (hs : e = .bw → y.seed2 = x.seed2) : EventCase e ev x y
  | keyBuffer (i n : Nat) (v : Word)
      (h : ∃ offset width w, ev = .access (.write e offset width w) ∧ 0x1000 ≤ offset ∧ offset < 0x2000) :
      EventCase e ev x (x.writeKey i n v)
  | illegal (w : Word) (h : ev = .access (.write e 8 8 w)) : EventCase e ev x (x.raise .illegalCommand)
  | configure (h : isConfigure e ev) (hw : ev = .access (.write e 8 8 1#64)) : EventCase e ev x (x.configureBy e)
  | insert (hw : ev = .access (.write e 8 8 2#64)) : EventCase e ev x (x.insertBy e)
  | contains (h : ∃ a, ev = .access a ∧ decode a = .ok (containsOf e)) (hw : ev = .access (.write e 8 8 3#64)) :
      EventCase e ev x (x.containsBy e)
  | bulkInsert (hw : ev = .access (.write e 8 8 4#64)) : EventCase e ev x (x.bulkInsertBy e)

theorem eventEffect_read (e : EngineKind) (o w : Nat) (x : Engine) : eventEffect (.access (.read e o w)) x = x := by
  simp only [eventEffect, decode, decodeRead]
  split_ifs
  · match regAt o with
    | none => rfl
    | some r => cases r <;> rfl
  · rfl
  all_goals
    cases alignedSize o w <;> rfl

theorem eventEffect_command (e : EngineKind) (v : Word) (x : Engine) :
    EventCase e (.access (.write e 8 8 v)) x (eventEffect (.access (.write e 8 8 v)) x) := by
  have hd : decode (.write e 8 8 v) = decodeCommand e v := rfl
  simp only [eventEffect, hd]
  rw [decodeCommand] at hd ⊢
  cases hc : commandOp v with
  | none => exact .illegal v rfl
  | some op =>
    rw [hc] at hd
    have := commandOp_eq_some.1 hc
    subst this
    cases op <;> cases e
    · exact .configure ⟨_, rfl, hd⟩ rfl
    · exact .configure ⟨_, rfl, hd⟩ rfl
    · exact .insert rfl
    · exact .insert rfl
    · exact .contains ⟨_, rfl, hd⟩ rfl
    · exact .contains ⟨_, rfl, hd⟩ rfl
    · exact .bulkInsert rfl
    · exact .bulkInsert rfl

theorem eventEffect_cases (ev : HostEvent) (x : Engine) : EventCase (eventTarget ev) ev x (eventEffect ev x) := by
  cases ev with
  | reset e => exact .reset rfl
  | access a =>
    cases a with
    | read e o w => rw [eventEffect_read]; exact .unchanged
    | write e o w v =>
      by_cases hcmd : o = 8 ∧ w = 8
      · obtain ⟨rfl, rfl⟩ := hcmd
        exact eventEffect_command e v x
      simp only [eventEffect, eventTarget, BusAccess.engine, decode, decodeWrite]
      split_ifs with h1 h2 h3
      · simp [registerAccess] at h2
        obtain ⟨rfl, _⟩ := h2
        cases hr : regAt o with
        | none => exact .unchanged
        | some r =>
          have := offset_of_regAt hr
          subst this
          cases r
          case cmd => exact absurd ⟨rfl, rfl⟩ hcmd
          case id | status | capacityBits | kEff | rawBytes | blockBits => exact .unchanged
          case seed2 =>
            cases e
            · exact .register _ ⟨rfl, rfl, rfl, rfl, rfl, rfl, rfl⟩ (by simp)
            · exact .unchanged
          all_goals exact .register _ ⟨rfl, rfl, rfl, rfl, rfl, rfl, rfl⟩ (fun _ => rfl)
      · exact .unchanged
      · cases alignedSize o w with
        | none => exact .unchanged
        | some n =>
          simp only [instrEffect]
          split_ifs
          · exact .keyBuffer _ _ _ ⟨o, w, v, rfl, by omega, h3⟩
          · exact .unchanged
      · cases alignedSize o w <;> exact .unchanged

/-- What a step that answers a next state did to one engine: nothing, or one case of the oldest event. -/
theorem step_engine_cases {s t : State} (h : step s = .next t) (e : EngineKind) :
    t.engine e = s.engine e ∨ ∃ ev rest, s.port = ev :: rest ∧ EventCase e ev (s.engine e) (t.engine e) := by
  rcases step_cases h with ⟨_, rfl⟩ | ⟨ev, rest, hp, _, rfl⟩
  · exact .inl rfl
  · rw [afterEvent_engine]
    split_ifs with he
    · subst he; exact .inr ⟨ev, rest, hp, eventEffect_cases _ _⟩
    · exact .inl rfl

/-! ### The reset parameters -/

theorem append_one_odd (w : BitVec 63) : (w ++ 1#1).toNat % 2 = 1 := by
  have h : (w ++ 1#1).getLsbD 0 = true := by rw [BitVec.getLsbD_append]; rfl
  rw [BitVec.getLsbD, Nat.testBit_zero] at h
  simpa using h

/-- R7: whatever the open parameters are, they lie in their ranges. -/
theorem Config.params_wf (e : EngineKind) : (Config.params e).wf e := by
  refine ⟨?_, ?_, ⟨(Config.maxBwWordsLog e).val, by omega, rfl⟩, ?_, ?_, ?_⟩
  · simp only [Config.params]; omega
  · simp only [Config.params]; omega
  · simp only [Config.params]; omega
  · simp only [Config.params, Config.mix, MixParams.wf]
    refine ⟨append_one_odd _, append_one_odd _, append_one_odd _, ?_, ?_, ?_⟩ <;> omega
  · cases e <;> simp [Config.params, Params.storageBytes]

end Sys2Proof.Machine
end

