-- ==== Sys2Proof/Laws/PerInstr.lean ====
section
/-! SUPPORT. Statements for every instruction as syntax, one lemma per constructor: the access that carries a well-formed instruction
is one the bus can make (R54, R56, R57). -/

namespace Sys2Proof.Laws.EncodedAccess

/-- The width in bytes of an access. -/
def width : BusAccess → Nat
  | .read _ _ n => n
  | .write _ _ n _ => n

/-- R54, R56, R57: an 8-byte aligned 64-bit access of the register page, or an access of 1, 2, 4 or 8 bytes above it at an offset
aligned to its size. -/
def lawful (a : BusAccess) : Prop :=
  (a.offset < 0x1000 ∧ width a = 8 ∧ a.offset % 8 = 0) ∨
  (0x1000 ≤ a.offset ∧ (width a = 1 ∨ width a = 2 ∨ width a = 4 ∨ width a = 8) ∧ a.offset % width a = 0)

/-- A well-formed instruction is encoded by a lawful access. -/
def Statement (i : Instr) : Prop := i.wf = true → lawful (encode i)

theorem bytes_cases (n : AccessSize) : n.bytes = 1 ∨ n.bytes = 2 ∨ n.bytes = 4 ∨ n.bytes = 8 := by
  cases n <;> simp [AccessSize.bytes]

theorem page_mod (base k : Nat) (n : AccessSize) (hb : base % 8 = 0) (hk : k % n.bytes = 0) :
    (base + k) % n.bytes = 0 := by
  have h : n.bytes ∣ base := (bytes_dvd n).trans (Nat.dvd_of_mod_eq_zero hb)
  exact Nat.mod_eq_zero_of_dvd (h.add (Nat.dvd_of_mod_eq_zero hk))

theorem dhConfigure : Statement .dhConfigure := fun _ => .inl ⟨by decide, rfl, rfl⟩
theorem dhInsert : Statement .dhInsert := fun _ => .inl ⟨by decide, rfl, rfl⟩
theorem dhContains : Statement .dhContains := fun _ => .inl ⟨by decide, rfl, rfl⟩
theorem dhBulkInsert : Statement .dhBulkInsert := fun _ => .inl ⟨by decide, rfl, rfl⟩
theorem bwConfigure : Statement .bwConfigure := fun _ => .inl ⟨by decide, rfl, rfl⟩
theorem bwInsert : Statement .bwInsert := fun _ => .inl ⟨by decide, rfl, rfl⟩
theorem bwContains : Statement .bwContains := fun _ => .inl ⟨by decide, rfl, rfl⟩
theorem bwBulkInsert : Statement .bwBulkInsert := fun _ => .inl ⟨by decide, rfl, rfl⟩

theorem writeSizeBits (e : EngineKind) (v : Word) : Statement (.writeSizeBits e v) :=
  fun _ => .inl (by simp [encode, BusAccess.offset, width])
theorem writeNumHashes (e : EngineKind) (v : Word) : Statement (.writeNumHashes e v) :=
  fun _ => .inl (by simp [encode, BusAccess.offset, width])
theorem writeSeed1 (e : EngineKind) (v : Word) : Statement (.writeSeed1 e v) :=
  fun _ => .inl (by simp [encode, BusAccess.offset, width])
theorem writeSeed2 (e : EngineKind) (v : Word) : Statement (.writeSeed2 e v) :=
  fun _ => .inl (by simp [encode, BusAccess.offset, width])
theorem writeKeyLen (e : EngineKind) (v : Word) : Statement (.writeKeyLen e v) :=
  fun _ => .inl (by simp [encode, BusAccess.offset, width])
theorem writeKeyCount (e : EngineKind) (v : Word) : Statement (.writeKeyCount e v) :=
  fun _ => .inl (by simp [encode, BusAccess.offset, width])

theorem writeKeyBuf (e : EngineKind) (k : Nat) (n : AccessSize) (v : Word) : Statement (.writeKeyBuf e k n v) := by
  intro h
  simp only [Instr.wf, Bool.and_eq_true, decide_eq_true_eq] at h
  exact .inr ⟨Nat.le_add_right _ _, bytes_cases n, page_mod _ _ _ rfl h.1.2⟩

theorem readId (e : EngineKind) : Statement (.readId e) := fun _ => .inl (by simp [encode, BusAccess.offset, width])
theorem readStatus (e : EngineKind) : Statement (.readStatus e) :=
  fun _ => .inl (by simp [encode, BusAccess.offset, width])
theorem readCapacityBits (e : EngineKind) : Statement (.readCapacityBits e) :=
  fun _ => .inl (by simp [encode, BusAccess.offset, width])
theorem readKEff (e : EngineKind) : Statement (.readKEff e) :=
  fun _ => .inl (by simp [encode, BusAccess.offset, width])
theorem readRawBytes (e : EngineKind) : Statement (.readRawBytes e) :=
  fun _ => .inl (by simp [encode, BusAccess.offset, width])
theorem readBlockBits (e : EngineKind) : Statement (.readBlockBits e) :=
  fun _ => .inl (by simp [encode, BusAccess.offset, width])

theorem readRaw (e : EngineKind) (a : Nat) (n : AccessSize) : Statement (.readRaw e a n) := by
  intro h
  simp only [Instr.wf, decide_eq_true_eq] at h
  refine .inr ⟨?_, bytes_cases n, page_mod _ _ _ rfl h⟩
  show 0x1000 ≤ 0x10000 + a
  omega

end Sys2Proof.Laws.EncodedAccess
end

