-- ==== Sys2Proof/Tests/Slice0.lean ====
section
/-! SUPPORT. Tests with expected results from the spec (95_test_vectors.md and the encodings of 30_encoding.md), and one witness for the
hypotheses of every statement of Certificates/Slice0/Obligations.lean that has any. -/

open Sys2Proof Sys2Proof.Machine Sys2Proof.Claims

namespace Sys2Proof.Tests

/-! ### Small states -/

def alpha : List Byte := [0x61, 0x6C, 0x70, 0x68, 0x61]
def gamma : List Byte := [0x67, 0x61, 0x6D, 0x6D, 0x61]
def beta : List Byte := [0x62, 0x65, 0x74, 0x61]

/-- The limits of 95_test_vectors.md section 2.1 and the assumed hash values of its programs P1, P2, P3 and P4. -/
def testParams : Params :=
  { keybufBytes := 4096, maxDhBits := 1048576, maxBwWords := 16384, maxK := 64, digestSigned := false
    mix := MixParams.splitMix64, engineBase := 0x40000000, rawWindowBytes := 131072
    digests :=
      [⟨.dhH1, 0, alpha, 123456789⟩, ⟨.dhH2, 0, alpha, 987654321⟩, ⟨.dhH1, 0, [], 77⟩, ⟨.dhH2, 0, [], 0⟩,
       ⟨.dhH1, 0, gamma, 5⟩, ⟨.dhH2, 0, gamma, 3⟩, ⟨.dhH1, 0, beta, 20⟩, ⟨.dhH2, 0, beta, 16⟩,
       ⟨.bwH, 0, [0x78], 0xFFFFFFFFFFFFFFFF⟩, ⟨.bwH, 0, [0x79], 1⟩, ⟨.bwH, 0, [0x7A], 0x8000000000000000⟩] }

def blank : Engine := Engine.atReset testParams

/-- A DH engine after `configure 1000, 7` with the key "alpha" in its buffer (P1). -/
def dhAlpha : Engine :=
  { blank with
    sizeBits := 1000, numHashes := 7, keyLen := 5, configured := true
    cfg := { m := 1000, k := 7, s1 := 0, s2 := 0, wc := 0, bb := 0, rb := 125 }
    keyBuf := [(0, 0x61), (1, 0x6C), (2, 0x70), (3, 0x68), (4, 0x61)] }

/-- The storage P1 ends with. -/
def alphaStorage : Memory := [(9, 0x02), (13, 0x40), (49, 0x04), (53, 0x80), (89, 0x08), (94, 0x01), (98, 0x20)]

/-- A DH engine after `configure 16, 3` with the two records of P4. -/
def dhRecords : Engine :=
  { blank with
    keyLen := 13, keyCount := 2, configured := true
    cfg := { m := 16, k := 3, s1 := 0, s2 := 0, wc := 0, bb := 0, rb := 2 }
    keyBuf := [(0, 0x05), (2, 0x67), (3, 0x61), (4, 0x6D), (5, 0x6D), (6, 0x61), (7, 0x04), (9, 0x62), (10, 0x65),
      (11, 0x74), (12, 0x61)] }

/-- A BW engine after `configure 100, 3` with the key "x" (P2). -/
def bwX : Engine :=
  { blank with
    sizeBits := 100, numHashes := 3, keyLen := 1, configured := true
    cfg := { m := 128, k := 3, s1 := 0, s2 := 0, wc := 2, bb := 1, rb := 16 }
    keyBuf := [(0, 0x78)] }

/-- The storage of P2 after its inserts of "x" and "y". -/
def xyStorage : Memory := [(0, 0x02), (3, 0x40), (4, 0x80), (9, 0x02), (12, 0x01), (13, 0x02)]

/-- A BW engine with the records "x" and "y". -/
def bwRecords : Engine :=
  { bwX with keyLen := 6, keyCount := 2, keyBuf := [(0, 0x01), (2, 0x78), (3, 0x01), (5, 0x79)] }

def mk (dh bw : Engine) (port : List HostEvent) : State :=
  { instances := .both, dh := dh, bw := bw, port := port, responses := [] }

def s0 : State := mk dhAlpha bwX []

/-- The state a step or an instruction answers, if it answers one. -/
def next? : Host.Outcome State Fault Refusal → Option State
  | .next t => some t
  | _ => none

/-- The answers of the one instruction `i`. -/
def answers (i : Instr) (s : State) : Option (List Response) := (next? (exec i s)).map (·.responses)

/-- A DH engine with other arguments for CONFIGURE. -/
def dhArgs (size k : Word) : Engine := { dhAlpha with sizeBits := size, numHashes := k, storage := alphaStorage }
def bwArgs (size k : Word) : Engine := { bwX with sizeBits := size, numHashes := k, storage := xyStorage }

/-! ### WellFormed refuses an ill-formed term at each of its checks -/

theorem test_wf_index_beyond_window : Instr.wf (.writeKeyBuf .dh 0x1000 .b1 0) = false := by decide
theorem test_wf_index_misaligned : Instr.wf (.writeKeyBuf .dh 2 .b4 0) = false := by decide
theorem test_wf_value_too_wide : Instr.wf (.writeKeyBuf .dh 0 .b1 0x100) = false := by decide
theorem test_wf_raw_misaligned : Instr.wf (.readRaw .bw 2 .b4) = false := by decide
theorem test_wf_accepts : Instr.wf (.writeKeyBuf .bw 0xFF8 .b8 0xFFFFFFFFFFFFFFFF) = true := by decide

/-! ### Decoding: words written out from the encodings (30_encoding.md R70–R79, opcode_table.json) -/

theorem test_decode_dhConfigure : decode (.write .dh 0x008 8 0x0000000000000001) = .ok .dhConfigure := rfl
theorem test_decode_dhInsert : decode (.write .dh 0x008 8 0x0000000000000002) = .ok .dhInsert := rfl
theorem test_decode_dhContains : decode (.write .dh 0x008 8 0x0000000000000003) = .ok .dhContains := rfl
theorem test_decode_dhBulkInsert : decode (.write .dh 0x008 8 0x0000000000000004) = .ok .dhBulkInsert := rfl
theorem test_decode_bwConfigure : decode (.write .bw 0x008 8 0x0000000000000001) = .ok .bwConfigure := rfl
theorem test_decode_bwInsert : decode (.write .bw 0x008 8 0x0000000000000002) = .ok .bwInsert := rfl
theorem test_decode_bwContains : decode (.write .bw 0x008 8 0x0000000000000003) = .ok .bwContains := rfl
theorem test_decode_bwBulkInsert : decode (.write .bw 0x008 8 0x0000000000000004) = .ok .bwBulkInsert := rfl
theorem test_decode_writeSizeBits : decode (.write .dh 0x018 8 0x3E8) = .ok (.writeSizeBits .dh 0x3E8) := rfl
theorem test_decode_writeNumHashes : decode (.write .dh 0x020 8 0x7) = .ok (.writeNumHashes .dh 0x7) := rfl
theorem test_decode_writeSeed1 : decode (.write .bw 0x028 8 0x9) = .ok (.writeSeed1 .bw 0x9) := rfl
theorem test_decode_writeSeed2 : decode (.write .dh 0x030 8 0x8) = .ok (.writeSeed2 .dh 0x8) := rfl
theorem test_decode_writeKeyLen : decode (.write .dh 0x038 8 0x1388) = .ok (.writeKeyLen .dh 0x1388) := rfl
theorem test_decode_writeKeyCount : decode (.write .dh 0x040 8 0x2) = .ok (.writeKeyCount .dh 0x2) := rfl
theorem test_decode_writeKeyBuf :
    decode (.write .dh 0x1008 8 0x0000006174656200) = .ok (.writeKeyBuf .dh 8 .b8 0x0000006174656200) := by decide
theorem test_decode_readId : decode (.read .bw 0x000 8) = .ok (.readId .bw) := rfl
theorem test_decode_readStatus : decode (.read .dh 0x010 8) = .ok (.readStatus .dh) := rfl
theorem test_decode_readCapacityBits : decode (.read .bw 0x048 8) = .ok (.readCapacityBits .bw) := rfl
theorem test_decode_readKEff : decode (.read .dh 0x050 8) = .ok (.readKEff .dh) := rfl
theorem test_decode_readRawBytes : decode (.read .dh 0x058 8) = .ok (.readRawBytes .dh) := rfl
theorem test_decode_readBlockBits : decode (.read .bw 0x060 8) = .ok (.readBlockBits .bw) := rfl
theorem test_decode_readRaw : decode (.read .dh 0x10060 4) = .ok (.readRaw .dh 96 .b4) := by decide

/-- R74, section 2.2: reserved bits and the other opcodes are illegal commands. -/
theorem test_decode_illegal_commands :
    decode (.write .dh 0x008 8 0) = .error (.illegalCommand .dh) ∧
    decode (.write .dh 0x008 8 5) = .error (.illegalCommand .dh) ∧
    decode (.write .dh 0x008 8 0xF) = .error (.illegalCommand .dh) ∧
    decode (.write .dh 0x008 8 0x13) = .error (.illegalCommand .dh) ∧
    decode (.write .bw 0x008 8 0x8000000000000001) = .error (.illegalCommand .bw) := by decide

/-- Section 2.3: the bus accesses that are no row of the table. -/
theorem test_decode_other_accesses :
    decode (.read .dh 0x010 4) = .error (.busError .dh) ∧ decode (.write .dh 0x01C 8 0) = .error (.busError .dh) ∧
    decode (.write .dh 0x048 8 5) = .error (.ignoreWrite .dh) ∧ decode (.read .dh 0x068 8) = .error (.readZero .dh) ∧
    decode (.read .dh 0x008 8) = .error (.readRegister .dh .cmd) ∧
    decode (.write .dh 0x1001 2 0) = .error (.busError .dh) ∧
    decode (.write .dh 0x2000 1 0) = .error (.ignoreWrite .dh) ∧
    decode (.write .dh 0x10000 8 0) = .error (.ignoreWrite .dh) ∧
    decode (.read .dh 0x10002 4) = .error (.busError .dh) := by decide

theorem test_decodeTableWord :
    decodeTableWord 64 0x1 = some .dhConfigure ∧ decodeTableWord 64 0x018 = some (.writeSizeBits .dh 0) ∧
    decodeTableWord 64 0x010 = some (.readStatus .dh) ∧ decodeTableWord 64 0x1000 = some (.writeKeyBuf .dh 0 .b1 0) ∧
    decodeTableWord 64 0x10000 = some (.readRaw .dh 0 .b1) ∧ decodeTableWord 64 0x13 = none := by decide

theorem test_withFetchWord_command :
    (next? (step (s0.withFetchWord 64 0x1))).map (fun t => (t.port, t.dh.status)) = some ([], 0x01) := by decide
theorem test_withFetchWord_readRaw :
    (next? (step (s0.withFetchWord 64 0x10000))).map (·.responses) = some [.value 0] := by decide

/-! ### The selectors (95_test_vectors.md section 3) -/

theorem test_dhProbes :
    dhProbes false 123456789 987654321 1000 7 = [789, 110, 431, 752, 73, 394, 715] ∧
    dhProbes false 42 5000 1000 3 = [42, 43, 44] ∧ dhProbes false 5 9 1 3 = [0, 0, 0] ∧
    dhProbes false 0xFFFFFFFFFFFFFFFF 0xFFFFFFFFFFFFFFFF 1000 4 = [615, 230, 845, 460] ∧
    dhProbes false 0xFFFFFFFFFF 0xFFFFFFFFFF 0x10000000000 3 = [0xFFFFFFFFFF, 0xFFFFFFFFFE, 0xFFFFFFFFFD] ∧
    dhProbes false 0 5 10 4 = [0, 5, 0, 5] := by decide
theorem test_dhStart_signed :
    dhStart true 1000 0xFFFFFFFFFFFFFFFF = 999 ∧ dhStart true 1000 0x8000000000000000 = 192 ∧
    dhStart false 1000 0x8000000000000000 = 808 := by decide
theorem test_bwIndex :
    bwIndex 0xFFFFFFFFFFFFFFFF 0 = 0 ∧ bwIndex 0x8000000000000000 1 = 1 ∧ bwIndex 0xF000000000000000 4 = 15 ∧
    bwIndex 0xDEADBEEFCAFEBABE 5 = 27 ∧ bwIndex 0xFFFFFFFFFFFFFFFF 57 = 2 ^ 57 - 1 := by decide
theorem test_mix :
    mix .splitMix64 0x9E3779B97F4A7C15 = 0xE220A8397B1DCDAF ∧ mix .splitMix64 0 = 0 ∧
    mix .splitMix64 (mixState .splitMix64 0 3) = 0x06C45D188009454F := by decide
theorem test_bwMask :
    bwMask .splitMix64 0 4 = 0x0010900000008000 ∧ bwMask .splitMix64 0x0123456789ABCDEF 7 = 0x4004100020080120 ∧
    bwMask .splitMix64 0xDEADBEEFCAFEBABE 8 = 0xA000004400040822 ∧
    bwMask .splitMix64 0 70 = 0x19D7BF72AFF1F26B := by decide

/-! ### The commands (95_test_vectors.md sections 2.1, 2.2 and 4) -/

/-- `STATUS`, `CAPACITY_BITS`, `K_EFF`, `RAW_BYTES`, `BLOCK_BITS` and the storage after CONFIGURE. -/
def configured (e : EngineKind) (x : Engine) : List Word × Memory :=
  ([x.status, x.cfg.m, x.cfg.k, x.cfg.rb, x.readReg e .blockBits], x.storage)

theorem test_dhConfigure :
    configured .dh (dhArgs 1000 7).dhConfigure = ([0x01, 1000, 7, 125, 0], []) ∧
    configured .dh (dhArgs 9 1).dhConfigure = ([0x01, 9, 1, 2, 0], []) := by decide
theorem test_dhConfigure_errors :
    configured .dh (dhArgs 0 5).dhConfigure = ([0x11, 1000, 7, 125, 0], alphaStorage) ∧
    configured .dh (dhArgs (-1) 100).dhConfigure = ([0x11, 1000, 7, 125, 0], alphaStorage) ∧
    configured .dh (dhArgs 1048577 3).dhConfigure = ([0x21, 1000, 7, 125, 0], alphaStorage) ∧
    configured .dh (dhArgs 64 65).dhConfigure = ([0x21, 1000, 7, 125, 0], alphaStorage) := by decide
theorem test_bwConfigure :
    configured .bw (bwArgs 1 1).bwConfigure = ([0x01, 64, 1, 8, 0], []) ∧
    configured .bw (bwArgs 129 3).bwConfigure = ([0x01, 256, 3, 32, 2], []) ∧
    configured .bw (bwArgs 4097 7).bwConfigure = ([0x01, 8192, 7, 1024, 7], []) ∧
    configured .bw (bwArgs 1048576 1).bwConfigure = ([0x01, 1048576, 1, 131072, 14], []) := by decide
theorem test_bwConfigure_errors :
    configured .bw (bwArgs 1048577 1).bwConfigure = ([0x21, 128, 3, 16, 1], xyStorage) ∧
    configured .bw (bwArgs 5 0).bwConfigure = ([0x11, 128, 3, 16, 1], xyStorage) := by decide

/-- P1 line 8. -/
theorem test_dhInsert :
    (next? (exec .dhInsert s0)).map (fun t => (t.dh.storage, t.dh.status)) = some (alphaStorage, 0x01) := by
  decide
/-- P1 line 9, and the row "reset, 0x3, 4097" of section 2.2. -/
theorem test_dhContains :
    ({ dhAlpha with storage := alphaStorage } : Engine).dhContains.status = 0x03 ∧ dhAlpha.dhContains.status = 0x01 ∧
    ({ blank with keyLen := 4097 } : Engine).dhContains.status = 0x30 := by decide
/-- P4 lines 6 and 9. -/
theorem test_dhBulkInsert :
    dhRecords.dhBulkInsert.storage = [(0, 0x70), (1, 0x09)] ∧
    ({ dhRecords with keyCount := 3 } : Engine).dhBulkInsert = { dhRecords with keyCount := 3, err := .keyFormat } := by
  decide
/-- P2 line 7. -/
theorem test_bwInsert : bwX.bwInsert.storage = [(9, 0x02), (12, 0x01), (13, 0x02)] := by decide
/-- P2 lines 11 and 13. -/
theorem test_bwContains :
    ({ bwX with storage := xyStorage, keyBuf := [(0, 0x7A)] } : Engine).bwContains.status = 0x01 ∧
    ({ bwX with storage := xyStorage } : Engine).bwContains.status = 0x03 := by decide
/-- P2's words 0 and 1, inserted as records. -/
theorem test_bwBulkInsert :
    (next? (exec .bwBulkInsert (mk dhAlpha bwRecords []))).map (fun t => t.bw.storage) = some xyStorage := by
  decide

/-! ### The host accesses -/

theorem test_writeSizeBits : (next? (exec (.writeSizeBits .bw 100) (mk blank blank []))).map (·.bw.sizeBits) = some 100 := by
  decide
theorem test_writeNumHashes :
    (next? (exec (.writeNumHashes .bw 3) (mk blank blank []))).map (·.bw.numHashes) = some 3 := by decide
theorem test_writeSeed1 : (next? (exec (.writeSeed1 .bw 9) s0)).map (·.bw.seed1) = some 9 := by decide
theorem test_writeSeed2 :
    (next? (exec (.writeSeed2 .dh 9) s0)).map (·.dh.seed2) = some 9 ∧
    (next? (exec (.writeSeed2 .bw 9) s0)).map (·.bw.seed2) = some 0 := by decide
theorem test_writeKeyLen : (next? (exec (.writeKeyLen .dh 4) s0)).map (·.dh.keyLen) = some 4 := by decide
theorem test_writeKeyCount : (next? (exec (.writeKeyCount .dh 2) s0)).map (·.dh.keyCount) = some 2 := by decide
/-- P1 line 12: "alpha" becomes "delta". -/
theorem test_writeKeyBuf :
    (next? (exec (.writeKeyBuf .dh 0 .b4 0x746C6564) s0)).map (·.dh.key) = some [0x64, 0x65, 0x6C, 0x74, 0x61] := by
  decide
/-- R56: bytes at and beyond KEYBUF_BYTES are dropped, bytes below it of the same access are stored. -/
theorem test_writeKeyBuf_beyond :
    ({ blank with params := { testParams with keybufBytes := 2 } } : Engine).writeKey 0 4 0x44434241 =
      { blank with params := { testParams with keybufBytes := 2 }, keyBuf := [(0, 0x41), (1, 0x42)] } := by
  decide
theorem test_readId : answers (.readId .dh) s0 = some [.value 1] ∧ answers (.readId .bw) s0 = some [.value 2] := by
  decide
/-- P3's end state: ERR = 1, CONFIGURED = 1. -/
theorem test_readStatus :
    answers (.readStatus .dh) (mk (dhAlpha.raise .invalidConfiguration) bwX []) = some [.value 0x11] := by decide
theorem test_readCapacityBits : answers (.readCapacityBits .bw) s0 = some [.value 128] := by decide
theorem test_readKEff : answers (.readKEff .dh) s0 = some [.value 7] := by decide
theorem test_readRawBytes : answers (.readRawBytes .dh) s0 = some [.value 125] := by decide
theorem test_readBlockBits :
    answers (.readBlockBits .bw) s0 = some [.value 1] ∧ answers (.readBlockBits .dh) s0 = some [.value 0] := by
  decide
/-- P1 line 11. -/
theorem test_readRaw_dh :
    answers (.readRaw .dh 96 .b4) (mk { dhAlpha with storage := alphaStorage } bwX []) = some [.value 0x00200000] := by
  decide
/-- P2 lines 16 and 18. -/
theorem test_readRaw_bw :
    answers (.readRaw .bw 8 .b8) (mk dhAlpha { bwX with storage := xyStorage } []) = some [.value 0x0000020100000200] ∧
    answers (.readRaw .bw 16 .b8) (mk dhAlpha { bwX with storage := xyStorage } []) = some [.value 0] := by
  decide

/-! ### Witnesses: a state and operands that meet all hypotheses of a statement together -/

/-- The two engines of `s0`, with inserted storages, and one event at the port. -/
def sAt (ev : HostEvent) : State := mk { dhAlpha with storage := alphaStorage } { bwX with storage := xyStorage } [ev]

def rd (e : EngineKind) (offset width : Nat) : HostEvent := .access (.read e offset width)
def wr (e : EngineKind) (offset width : Nat) (v : Word) : HostEvent := .access (.write e offset width v)

theorem witness_DecodeOfEncodeIsInstruction :
    (Instr.writeKeyBuf .bw 0xFFF .b1 0xFF).wf = true ∧ (Instr.readRaw .dh 0x1FFF8 .b8).wf = true := by decide

theorem witness_EncodeOfDecodeIsAccess :
    decode (.write .dh 0x1FFE 2 0xABCD6261) = .ok (.writeKeyBuf .dh 0xFFE .b2 0x6261) := by decide

theorem witness_StepRunsDecodedInstruction :
    (sAt (wr .dh 0x008 8 2)).port = .access (.write .dh 0x008 8 2) :: [] ∧
    hasEngine (sAt (wr .dh 0x008 8 2)).instances .dh = true ∧ ((sAt (wr .dh 0x008 8 2)).engine .dh).inWindow 0x008 = true ∧
    decode (.write .dh 0x008 8 2) = .ok .dhInsert := ⟨rfl, rfl, rfl, rfl⟩

theorem witness_WindowAccessCompletesInOrder :
    (sAt (rd .bw 0x2FFFF 1)).port = .access (.read .bw 0x2FFFF 1) :: [] ∧
    hasEngine (sAt (rd .bw 0x2FFFF 1)).instances .bw = true ∧
    ((sAt (rd .bw 0x2FFFF 1)).engine .bw).inWindow 0x2FFFF = true := ⟨rfl, rfl, by decide⟩

theorem witness_IdlePortChangesNothing : s0.port = [] := rfl

def dhAlone (ev : HostEvent) : State := { sAt ev with instances := .dhOnly }

theorem witness_EventsOutsideEnginesStop_absent :
    (dhAlone (.reset .bw)).port = .reset .bw :: [] ∧
    hasEngine (dhAlone (.reset .bw)).instances (eventTarget (.reset .bw)) = false := ⟨rfl, rfl⟩
theorem witness_EventsOutsideEnginesStop_window :
    (sAt (rd .dh 0x30000 1)).port = .access (.read .dh 0x30000 1) :: [] ∧
    hasEngine (sAt (rd .dh 0x30000 1)).instances .dh = true ∧
    0x10000 + ((sAt (rd .dh 0x30000 1)).engine .dh).params.rawWindowBytes ≤ 0x30000 := ⟨rfl, rfl, by decide⟩

/-- Each case of the hypotheses, at a boundary of its region: on the register page a wrong width (a 4-byte read of its last
offset that holds one) and a wrong alignment; above it a width that is none of the four (the first offset of the key-buffer
window, width 3, and of the raw window, width 0) and a misaligned write of the raw window's last byte. -/
theorem witness_BadAccessGetsBusError_page :
    ((sAt (rd .dh 0xFFC 4)).port = .access (.read .dh 0xFFC 4) :: [] ∧
      hasEngine (sAt (rd .dh 0xFFC 4)).instances .dh = true ∧ ((sAt (rd .dh 0xFFC 4)).engine .dh).inWindow 0xFFC = true ∧
      (0xFFC < 0x1000 ∧ (4 ≠ 8 ∨ 0xFFC % 8 ≠ 0))) ∧
    ((sAt (wr .dh 0x01C 8 0)).port = .access (.write .dh 0x01C 8 0) :: [] ∧
      hasEngine (sAt (wr .dh 0x01C 8 0)).instances .dh = true ∧
      ((sAt (wr .dh 0x01C 8 0)).engine .dh).inWindow 0x01C = true ∧ (0x01C < 0x1000 ∧ (8 ≠ 8 ∨ 0x01C % 8 ≠ 0))) :=
  ⟨⟨rfl, rfl, rfl, by decide⟩, rfl, rfl, rfl, by decide⟩
theorem witness_BadAccessGetsBusError_width :
    ((sAt (rd .bw 0x1000 3)).port = .access (.read .bw 0x1000 3) :: [] ∧
      hasEngine (sAt (rd .bw 0x1000 3)).instances .bw = true ∧
      ((sAt (rd .bw 0x1000 3)).engine .bw).inWindow 0x1000 = true ∧
      (0x1000 ≤ 0x1000 ∧ ((3 ≠ 1 ∧ 3 ≠ 2 ∧ 3 ≠ 4 ∧ 3 ≠ 8) ∨ 0x1000 % 3 ≠ 0))) ∧
    ((sAt (wr .dh 0x10000 0 0)).port = .access (.write .dh 0x10000 0 0) :: [] ∧
      hasEngine (sAt (wr .dh 0x10000 0 0)).instances .dh = true ∧
      ((sAt (wr .dh 0x10000 0 0)).engine .dh).inWindow 0x10000 = true ∧
      (0x1000 ≤ 0x10000 ∧ ((0 ≠ 1 ∧ 0 ≠ 2 ∧ 0 ≠ 4 ∧ 0 ≠ 8) ∨ 0x10000 % 0 ≠ 0))) :=
  ⟨⟨rfl, rfl, by decide, by decide⟩, rfl, rfl, by decide, by decide⟩
theorem witness_BadAccessGetsBusError_misaligned :
    (sAt (wr .bw 0x2FFFF 2 0)).port = .access (.write .bw 0x2FFFF 2 0) :: [] ∧
    hasEngine (sAt (wr .bw 0x2FFFF 2 0)).instances .bw = true ∧
    ((sAt (wr .bw 0x2FFFF 2 0)).engine .bw).inWindow 0x2FFFF = true ∧
    (0x1000 ≤ 0x2FFFF ∧ ((2 ≠ 1 ∧ 2 ≠ 2 ∧ 2 ≠ 4 ∧ 2 ≠ 8) ∨ 0x2FFFF % 2 ≠ 0)) := ⟨rfl, rfl, by decide, by decide⟩

/-- The first and last register, the first reserved offset and the last one. -/
theorem witness_RegisterPageReads :
    (∀ o ∈ [0x000, 0x060, 0x068, 0xFF8], o < 0x1000 ∧ o % 8 = 0 ∧
      (sAt (rd .bw o 8)).port = .access (.read .bw o 8) :: [] ∧ hasEngine (sAt (rd .bw o 8)).instances .bw = true) := by
  decide
theorem witness_RegisterPageWrites :
    (∀ o ∈ [0x000, 0x010, 0x018, 0x030, 0x040, 0x048, 0xFF8], o < 0x1000 ∧ o % 8 = 0 ∧ o ≠ 0x008 ∧
      (sAt (wr .bw o 8 5)).port = .access (.write .bw o 8 5) :: [] ∧ hasEngine (sAt (wr .bw o 8 5)).instances .bw = true) := by
  decide

theorem witness_IllegalCommandWritesErrOnly :
    ∀ w ∈ [(0x13 : Word), 0x8000000000000001, 0x0, 0x5, 0xF],
      (sAt (wr .dh 0x008 8 w)).port = .access (.write .dh 0x008 8 w) :: [] ∧
      hasEngine (sAt (wr .dh 0x008 8 w)).instances .dh = true ∧
      (w.extractLsb' 4 60 ≠ 0#60 ∨ w.extractLsb' 0 4 = 0#4 ∨ 5 ≤ (w.extractLsb' 0 4).toNat) := by
  intro w hw
  refine ⟨rfl, rfl, ?_⟩
  simp only [List.mem_cons, List.not_mem_nil, or_false] at hw
  obtain rfl | rfl | rfl | rfl | rfl := hw <;> simp

theorem witness_KeyBufferWindowReads :
    0xFF8 < 0x1000 ∧ 0xFF8 % AccessSize.b8.bytes = 0 ∧
    (sAt (rd .dh 0x1FF8 8)).port = .access (.read .dh (0x1000 + 0xFF8) AccessSize.b8.bytes) :: [] ∧
    hasEngine (sAt (rd .dh 0x1FF8 8)).instances .dh = true := ⟨by decide, by decide, by simp [sAt, rd, mk, AccessSize.bytes], rfl⟩

theorem witness_ReservedRangeAndRawWrites_reserved :
    (∀ o ∈ [0x2000, 0xFFF8], 0x2000 ≤ o ∧ o < 0x10000 ∧ o % AccessSize.b8.bytes = 0 ∧
      (sAt (rd .dh o 8)).port = .access (.read .dh o AccessSize.b8.bytes) :: [] ∧
      hasEngine (sAt (rd .dh o 8)).instances .dh = true) := by decide
theorem witness_ReservedRangeAndRawWrites_writes :
    (∀ o ∈ [0x2000, 0xFFF8, 0x10000, 0x2FFF8], 0x2000 ≤ o ∧ o % AccessSize.b8.bytes = 0 ∧
      ((sAt (wr .dh o 8 5)).engine .dh).inWindow o = true ∧
      (sAt (wr .dh o 8 5)).port = .access (.write .dh o AccessSize.b8.bytes 5) :: [] ∧
      hasEngine (sAt (wr .dh o 8 5)).instances .dh = true) := by decide

theorem witness_ResetEventClearsEngine :
    (sAt (.reset .dh)).port = .reset .dh :: [] ∧ hasEngine (sAt (.reset .dh)).instances .dh = true := ⟨rfl, rfl⟩

theorem witness_KeyBufferWriteStoresBytes :
    (s0.engine .dh).keyBuf.wf = true ∧ 0xFFC % AccessSize.b4.bytes = 0 ∧ 1 % AccessSize.b2.bytes ≠ 0 := by decide
theorem witness_RawReadReturnsStorage : 124 % AccessSize.b4.bytes = 0 ∧ 7 % AccessSize.b8.bytes ≠ 0 := by decide

/-- The least and the greatest arguments of section 2.1's limits. -/
theorem witness_DhConfigureSucceeds :
    (∀ a ∈ [((1 : Word), (1 : Word), 1, 1), (1048576, 64, 1048576, 64)],
      (mk (dhArgs a.1 a.2.1) bwX []).dh.sizeBits.toInt = (a.2.2.1 : Nat) ∧
      (mk (dhArgs a.1 a.2.1) bwX []).dh.numHashes.toInt = (a.2.2.2 : Nat) ∧ 0 < a.2.2.1 ∧ 0 < a.2.2.2 ∧
      a.2.2.1 ≤ (mk (dhArgs a.1 a.2.1) bwX []).dh.params.maxDhBits ∧
      a.2.2.2 ≤ (mk (dhArgs a.1 a.2.1) bwX []).dh.params.maxK) := by decide
theorem witness_BwConfigureSucceeds :
    (∀ a ∈ [((1 : Word), (1 : Word), 1, 1), (1048576, 64, 1048576, 64)],
      (mk dhAlpha (bwArgs a.1 a.2.1) []).bw.sizeBits.toInt = (a.2.2.1 : Nat) ∧
      (mk dhAlpha (bwArgs a.1 a.2.1) []).bw.numHashes.toInt = (a.2.2.2 : Nat) ∧ 0 < a.2.2.1 ∧ 0 < a.2.2.2 ∧
      (a.2.2.1 + 63) / 64 ≤ (mk dhAlpha (bwArgs a.1 a.2.1) []).bw.params.maxBwWords ∧
      a.2.2.2 ≤ (mk dhAlpha (bwArgs a.1 a.2.1) []).bw.params.maxK) := by decide

theorem witness_InvalidConfigurationExactly :
    invalidArguments ((mk (dhArgs 0 5) bwX []).engine .dh) ∧ invalidArguments ((mk dhAlpha (bwArgs 5 (-1)) []).engine .bw) ∧
    exec (configureOf .dh) s0 = .next (s0.perform .dh Engine.dhConfigure) :=
  ⟨.inl (by decide), .inr (by decide), rfl⟩

theorem witness_DhConfigureSucceeds_exceeded :
    (¬ invalidArguments (dhArgs 1048577 1) ∧ ((dhArgs 1048577 1).params.maxDhBits : Int) < (dhArgs 1048577 1).sizeBits.toInt) ∧
    (¬ invalidArguments (dhArgs 1 65) ∧ ((dhArgs 1 65).params.maxK : Int) < (dhArgs 1 65).numHashes.toInt) := by
  simp only [invalidArguments]; decide
theorem witness_BwConfigureSucceeds_exceeded :
    (¬ invalidArguments (bwArgs 1048577 1) ∧
      ((bwArgs 1048577 1).params.maxBwWords : Int) < ((bwArgs 1048577 1).sizeBits.toInt + 63) / 64) ∧
    (¬ invalidArguments (bwArgs 1 65) ∧ ((bwArgs 1 65).params.maxK : Int) < (bwArgs 1 65).numHashes.toInt) := by
  simp only [invalidArguments]; decide

theorem witness_FailedConfigureChangesErrOnly :
    exec (configureOf .bw) (mk dhAlpha (bwArgs 1048577 1) []) =
      .next ((mk dhAlpha (bwArgs 1048577 1) []).perform .bw Engine.bwConfigure) ∧
    (((mk dhAlpha (bwArgs 1048577 1) []).perform .bw Engine.bwConfigure).engine .bw).err ≠ .ok := ⟨rfl, by decide⟩

def sConfigured : State := s0.perform .dh Engine.dhConfigure

theorem witness_FreshInstanceContainsNothing :
    exec (configureOf .dh) s0 = .next sConfigured ∧ (sConfigured.engine .dh).err = .ok ∧
    (sConfigured.engine .dh).keyLen.toNat ≤ (sConfigured.engine .dh).params.keybufBytes := ⟨rfl, by decide, by decide⟩

theorem witness_DhProbesFollowTheProgression : 0 < 1 := by decide

theorem witness_DhInsertSetsProbeBits :
    s0.dh.storage.wf = true ∧ 0 < s0.dh.cfg.m.toNat ∧ s0.dh.configured = true ∧
    s0.dh.keyLen.toNat ≤ s0.dh.params.keybufBytes ∧ holdsKey s0.dh alpha :=
  ⟨rfl, by decide, rfl, by decide, by decide, by decide⟩

def sInserted : State := s0.perform .dh Engine.dhInsert

theorem witness_DhContainsTestsProbeBits :
    0 < sInserted.dh.cfg.m.toNat ∧ sInserted.dh.configured = true ∧
    sInserted.dh.keyLen.toNat ≤ sInserted.dh.params.keybufBytes ∧ holdsKey sInserted.dh alpha :=
  ⟨by decide, by decide, by decide, by decide, by decide⟩

def sRecords : State := mk dhRecords bwRecords []

theorem witness_DhBulkInsertSetsAllProbeBits :
    sRecords.dh.storage.wf = true ∧ 0 < sRecords.dh.cfg.m.toNat ∧ sRecords.dh.configured = true ∧
    sRecords.dh.keyLen.toNat ≤ sRecords.dh.params.keybufBytes ∧ holdsRecords sRecords.dh [gamma, beta] :=
  ⟨rfl, by decide, rfl, by decide, by decide, by decide, by decide, by decide⟩

theorem witness_BlockIndexIsTopBits : 0 ≤ 57 ∧ 57 ≤ 57 := by decide

theorem witness_MaskHasThePositions : 0 < 1 ∧ 0 < 70 := by decide

theorem witness_BwInsertOrsOneWord :
    s0.bw.storage.wf = true ∧ s0.bw.cfg.bb.toNat ≤ 57 ∧ s0.bw.configured = true ∧
    s0.bw.keyLen.toNat ≤ s0.bw.params.keybufBytes ∧ holdsKey s0.bw [0x78] :=
  ⟨rfl, by decide, rfl, by decide, by decide, by decide⟩

theorem witness_BwContainsTestsOneWord :
    s0.bw.cfg.bb.toNat ≤ 57 ∧ s0.bw.configured = true ∧ s0.bw.keyLen.toNat ≤ s0.bw.params.keybufBytes ∧
    holdsKey s0.bw [0x78] := ⟨by decide, rfl, by decide, by decide, by decide⟩

theorem witness_BwBulkInsertOrsWords :
    sRecords.bw.storage.wf = true ∧ sRecords.bw.cfg.bb.toNat ≤ 57 ∧ sRecords.bw.configured = true ∧
    sRecords.bw.keyLen.toNat ≤ sRecords.bw.params.keybufBytes ∧ holdsRecords sRecords.bw [[0x78], [0x79]] :=
  ⟨rfl, by decide, rfl, by decide, by decide, by decide, by decide, by decide⟩

theorem witness_NotConfiguredHasNoEffect :
    ((mk blank blank []).engine .dh).configured = false ∧ ((mk blank blank []).engine .bw).configured = false := ⟨rfl, rfl⟩

theorem witness_KeyTooLongHasNoEffect :
    ((mk { dhAlpha with keyLen := 4097 } bwX []).engine .dh).configured = true ∧
    ((mk { dhAlpha with keyLen := 4097 } bwX []).engine .dh).params.keybufBytes <
      ((mk { dhAlpha with keyLen := 4097 } bwX []).engine .dh).keyLen.toNat := by decide

/-- Section 2.2: one record in a list of one byte. -/
def sShort : State := mk { dhAlpha with keyLen := 1, keyCount := 1 } bwX []

theorem witness_KeyFormatHasNoEffect :
    (sShort.engine .dh).configured = true ∧
    (sShort.engine .dh).keyLen.toNat ≤ (sShort.engine .dh).params.keybufBytes ∧
    ¬ ∃ keys, holdsRecords (sShort.engine .dh) keys := by
  refine ⟨rfl, by decide, ?_⟩
  rintro ⟨keys, h1, -, h2, -⟩
  match keys, h1 with
  | [key], _ =>
    replace h2 : (recordBytes [key]).length ≤ 1 := h2
    simp [recordBytes] at h2

/-- After an INSERT, a run of one event, then CONTAINS. -/
def sBefore : State := mk dhAlpha bwX [rd .dh 0x010 8]
def sThen : State := sBefore.perform .dh Engine.dhInsert
def sLater : State := ({ sThen with port := [] } : State).answer (sThen.dh.readReg .dh .status)
def sEnd : State := sLater.perform .dh Engine.dhContains

theorem witness_NoFalseNegatives :
    (sBefore.engine .dh).storage.wf = true ∧ exec (insertOf .dh) sBefore = .next sThen ∧ (sThen.engine .dh).err = .ok ∧
    (∀ ev ∈ sThen.port, ¬ mayEndInstance .dh ev) ∧ Sys2Proof.core.run 1 sThen = .next sLater ∧
    (sLater.engine .dh).key = (sBefore.engine .dh).key ∧ exec (containsOf .dh) sLater = .next sEnd ∧
    (sEnd.engine .dh).err = .ok := by
  refine ⟨rfl, rfl, by decide, ?_, rfl, rfl, rfl, by decide⟩
  intro ev hev
  replace hev : ev ∈ [rd .dh 0x010 8] := hev
  obtain rfl := List.mem_singleton.1 hev
  rintro (h | ⟨a, ha, hd⟩)
  · cases h
  · cases ha; cases hd

theorem witness_InsertIsIdempotent :
    (s0.engine .bw).storage.wf = true ∧ exec (insertOf .bw) s0 = .next (s0.perform .bw Engine.bwInsert) ∧
    exec (insertOf .bw) (s0.perform .bw Engine.bwInsert) =
      .next ((s0.perform .bw Engine.bwInsert).perform .bw Engine.bwInsert) := ⟨rfl, rfl, rfl⟩

/-- The state after the one event of `sAt ev`, a command of the DH engine. -/
def sDone (f : Engine → Engine) : State := ({ sAt (.reset .dh) with port := [] } : State).perform .dh f

theorem witness_StorageBitsOnlyRise :
    ((sAt (wr .dh 0x008 8 2)).engine .dh).storage.wf = true ∧
    step (sAt (wr .dh 0x008 8 2)) = .next (sDone Engine.dhInsert) ∧
    (∀ ev, (sAt (wr .dh 0x008 8 2)).port.head? = some ev →
      ev ≠ .reset .dh ∧ (isConfigure .dh ev → ((sDone Engine.dhInsert).engine .dh).err ≠ .ok)) ∧
    (((sAt (wr .dh 0x008 8 2)).engine .dh).storage.read 98).getLsbD 5 = true := by
  refine ⟨by decide, rfl, ?_, by decide⟩
  intro ev hev
  replace hev : some (wr .dh 0x008 8 2) = some ev := hev
  cases hev
  refine ⟨by simp [wr], ?_⟩
  rintro ⟨a, ha, hd⟩
  cases ha; cases hd

def sSmaller (ev : HostEvent) : State := mk (dhArgs 16 3) bwX [ev]
def sSmallerDone : State := ({ sSmaller (wr .dh 0x008 8 1) with port := [] } : State).perform .dh Engine.dhConfigure

theorem witness_CfgChangesOnlyAtConfigure :
    step (sSmaller (wr .dh 0x008 8 1)) = .next sSmallerDone ∧
    (sSmallerDone.engine .dh).cfg ≠ ((sSmaller (wr .dh 0x008 8 1)).engine .dh).cfg := ⟨rfl, by decide⟩

def sReset : State := { sAt (.reset .dh) with port := [], dh := blank }

theorem witness_ConfiguredChangesOnlyByConfigureAndReset_cleared :
    step (sAt (.reset .dh)) = .next sReset ∧ ((sAt (.reset .dh)).engine .dh).configured = true ∧
    (sReset.engine .dh).configured = false := ⟨rfl, rfl, rfl⟩

def sFirst : State := mk { blank with sizeBits := 9, numHashes := 1 } bwX [wr .dh 0x008 8 1]
def sFirstDone : State := ({ sFirst with port := [] } : State).perform .dh Engine.dhConfigure

theorem witness_ConfiguredChangesOnlyByConfigureAndReset_set :
    step sFirst = .next sFirstDone ∧ (sFirst.engine .dh).configured = false ∧
    (sFirstDone.engine .dh).configured = true := ⟨rfl, rfl, by decide⟩

theorem witness_ResultWrittenOnlyByContains :
    step (sAt (wr .dh 0x008 8 3)) = .next (sDone Engine.dhContains) ∧
    ((sDone Engine.dhContains).engine .dh).result ≠ ((sAt (wr .dh 0x008 8 3)).engine .dh).result := ⟨rfl, by decide⟩

theorem witness_ErrChangesOnlyByCommands :
    step (sAt (wr .dh 0x008 8 0x13)) = .next (sDone fun x => x.raise .illegalCommand) ∧
    ((sDone fun x => x.raise .illegalCommand).engine .dh).err ≠ ((sAt (wr .dh 0x008 8 0x13)).engine .dh).err :=
  ⟨rfl, by decide⟩

theorem witness_StorageChangesOnlyByCommands :
    step (sSmaller (wr .dh 0x008 8 1)) = .next sSmallerDone ∧
    (sSmallerDone.engine .dh).storage ≠ ((sSmaller (wr .dh 0x008 8 1)).engine .dh).storage := ⟨rfl, by decide⟩

theorem witness_KeyBufChangesOnlyByHostWrites :
    step (sAt (wr .dh 0x1FFF 1 0x41)) = .next (sDone fun x => x.writeKey 0xFFF 1 0x41) ∧
    ((sDone fun x => x.writeKey 0xFFF 1 0x41).engine .dh).keyBuf ≠ ((sAt (wr .dh 0x1FFF 1 0x41)).engine .dh).keyBuf :=
  ⟨rfl, by decide⟩

theorem witness_EnginesShareNoState :
    step (sAt (wr .dh 0x008 8 2)) = .next (sDone Engine.dhInsert) ∧
    (sAt (wr .dh 0x008 8 2)).port = wr .dh 0x008 8 2 :: [] ∧ eventTarget (wr .dh 0x008 8 2) ≠ .bw :=
  ⟨rfl, rfl, by decide⟩

/-- The same DH engine beside another BW engine. -/
theorem witness_EngineIgnoresTheOther :
    (sAt (wr .dh 0x008 8 2)).port = wr .dh 0x008 8 2 :: [] ∧
    ({ sAt (wr .dh 0x008 8 2) with bw := bwRecords } : State).port = wr .dh 0x008 8 2 :: [] ∧
    eventTarget (wr .dh 0x008 8 2) = .dh ∧
    (sAt (wr .dh 0x008 8 2)).engine .dh = ({ sAt (wr .dh 0x008 8 2) with bw := bwRecords } : State).engine .dh ∧
    step (sAt (wr .dh 0x008 8 2)) = .next (sDone Engine.dhInsert) := ⟨rfl, rfl, rfl, rfl, rfl⟩

theorem witness_ArgumentRegistersDoNotMatterToKeyCommands :
    exec (insertOf .dh) s0 = .next (s0.perform .dh Engine.dhInsert) ∧
    exec (containsOf .bw) s0 = .next (s0.perform .bw Engine.bwContains) ∧
    exec (bulkInsertOf .bw) sRecords = .next (sRecords.perform .bw Engine.bwBulkInsert) := ⟨rfl, rfl, rfl⟩

theorem witness_ParametersNeverChange : step (sAt (.reset .dh)) = .next sReset := rfl

theorem witness_StepKeepsMemoriesCanonical :
    (sAt (wr .dh 0x008 8 2)).memoriesWf ∧ step (sAt (wr .dh 0x008 8 2)) = .next (sDone Engine.dhInsert) :=
  ⟨⟨⟨by decide, by decide⟩, by decide, by decide⟩, rfl⟩

theorem testParams_wf (e : EngineKind) : testParams.wf e := by
  refine ⟨by decide, by decide, ⟨14, by decide, by decide⟩, by decide, by decide, ?_⟩
  cases e <;> decide

/-- A configured DH engine with set bits is legal. -/
theorem dhAlpha_inv : EngineInv .dh { dhAlpha with storage := alphaStorage } where
  params := testParams_wf .dh
  keyBufWf := by decide
  storageWf := by decide
  keyBufRange i hi := by
    replace hi : 4096 ≤ i := hi
    exact (Memory.read_above (m := dhAlpha.keyBuf) (n := 5) (by decide) (by omega))
  storageRange a ha := by
    replace ha : 125 ≤ a := ha
    exact Memory.read_above (m := alphaStorage) (n := 99) (by decide) (by omega)
  unconfigured h := by cases h
  positive _ := by decide
  geometry _ := by simp only [geometryOk]; decide
  padding _ p hp := by
    replace hp : 1000 ≤ p := hp
    show (alphaStorage.read (p / 8)).getLsbD (p % 8) = false
    rw [Memory.read_above (n := 99) (by decide) (by omega)]
    simp
  seed2 h := by cases h

/-- A configured BW engine with set bits is legal. -/
theorem bwX_inv : EngineInv .bw { bwX with storage := xyStorage } where
  params := testParams_wf .bw
  keyBufWf := by decide
  storageWf := by decide
  keyBufRange i hi := by
    replace hi : 4096 ≤ i := hi
    exact Memory.read_above (m := bwX.keyBuf) (n := 1) (by decide) (by omega)
  storageRange a ha := by
    replace ha : 16 ≤ a := ha
    exact Memory.read_above (m := xyStorage) (n := 14) (by decide) (by omega)
  unconfigured h := by cases h
  positive _ := by decide
  geometry _ := by simp only [geometryOk]; decide
  padding h := by cases h
  seed2 _ := rfl

theorem witness_StepKeepsInvariant :
    (sAt (wr .dh 0x008 8 2)).Inv ∧ step (sAt (wr .dh 0x008 8 2)) = .next (sDone Engine.dhInsert) :=
  ⟨⟨dhAlpha_inv, bwX_inv⟩, rfl⟩

end Sys2Proof.Tests
end

section
/-! The state after reset (10_state.md R45): the values of an engine after reset, for any parameters, and the reset state of the
engine pair. -/

open Sys2Proof Sys2Proof.Machine Sys2Proof.Claims

namespace Sys2Proof.Machine

section AtReset
variable (p : Params)

@[simp] theorem Engine.atReset_params : (Engine.atReset p).params = p := rfl
@[simp] theorem Engine.atReset_sizeBits : (Engine.atReset p).sizeBits = 0 := rfl
@[simp] theorem Engine.atReset_numHashes : (Engine.atReset p).numHashes = 0 := rfl
@[simp] theorem Engine.atReset_seed1 : (Engine.atReset p).seed1 = 0 := rfl
@[simp] theorem Engine.atReset_seed2 : (Engine.atReset p).seed2 = 0 := rfl
@[simp] theorem Engine.atReset_keyLen : (Engine.atReset p).keyLen = 0 := rfl
@[simp] theorem Engine.atReset_keyCount : (Engine.atReset p).keyCount = 0 := rfl
@[simp] theorem Engine.atReset_configured : (Engine.atReset p).configured = false := rfl
@[simp] theorem Engine.atReset_result : (Engine.atReset p).result = false := rfl
@[simp] theorem Engine.atReset_err : (Engine.atReset p).err = .ok := rfl
@[simp] theorem Engine.atReset_cfg : (Engine.atReset p).cfg = ⟨0, 0, 0, 0, 0, 0, 0⟩ := rfl
@[simp] theorem Engine.atReset_keyBuf : (Engine.atReset p).keyBuf = [] := rfl
@[simp] theorem Engine.atReset_storage : (Engine.atReset p).storage = [] := rfl

/-- R45: `STATUS` is 0x00 after reset: not configured, no result, `ERR = OK`. -/
@[simp] theorem statusNumber_atReset : statusNumber (Engine.atReset p) = 0 := by
  simp [statusNumber, errNumber]

/-- R45: after reset the register page reads 0 but for `ID`, which is the kind. -/
theorem registerPageValue_atReset (e : EngineKind) (offset : Nat) :
    registerPageValue e (Engine.atReset p) offset = if offset = 0 then (if e = .dh then 1 else 2) else 0 := by
  unfold registerPageValue
  by_cases h : offset = 0
  · rw [if_pos h, if_pos h]
  · rw [if_neg h, if_neg h, statusNumber_atReset]
    -- The registers become literal 0s before `ite_self` merges the rows: on unreduced fields it explores them exponentially.
    dsimp only [Engine.atReset, Cfg.zero]
    simp only [BitVec.ofNat_eq_ofNat, BitVec.toNat_zero, ite_self]

end AtReset

@[simp] theorem State.reset_engine (e : EngineKind) : State.reset.engine e = Engine.atReset (Config.params e) := by
  cases e <;> rfl

end Sys2Proof.Machine

namespace Sys2Proof.Proofs

/-- Settles O16: each engine of the reset state is `Engine.atReset` of its parameters, whose fields are R45's values. -/
theorem resetStateValues : Obligations.ResetStateValues := by
  intro e
  rw [State.reset_engine]
  exact ⟨Engine.atReset_sizeBits _, Engine.atReset_numHashes _, Engine.atReset_seed1 _, Engine.atReset_seed2 _,
    Engine.atReset_keyLen _, Engine.atReset_keyCount _, statusNumber_atReset _, Engine.atReset_cfg _,
    Memory.read_nil, Memory.read_nil, registerPageValue_atReset _ e⟩

end Sys2Proof.Proofs
end

section
/-! Command words (30_encoding.md R71, R72, R74): what a 64-bit write to `CMD` decodes to, and that an illegal command writes only
`STATUS.ERR` (60_exceptions.md R193). -/

open Sys2Proof Sys2Proof.Machine Sys2Proof.Claims

namespace Sys2Proof

/-- R71: offset 0x008 is `CMD`, so a 64-bit write there is a command word. -/
theorem decode_write_cmd (e : EngineKind) (w : Word) : decode (.write e 0x008 8 w) = decodeCommand e w := rfl

@[simp] theorem decodeCommand_code (e : EngineKind) (op : CommandOp) :
    decodeCommand e op.code = .ok (commandInstr e op) := by
  rw [decodeCommand, commandOp_eq_some.2 rfl]

theorem decodeCommand_of_ne_code {w : Word} (h : ∀ op : CommandOp, w ≠ op.code) (e : EngineKind) :
    decodeCommand e w = .error (.illegalCommand e) := by
  have hnone : commandOp w = none := Option.eq_none_iff_forall_ne_some.2 fun op hop => h op (commandOp_eq_some.1 hop)
  rw [decodeCommand, hnone]

/-- R74: the command words have no reserved bit set and an `OP` from 1 to 4. -/
theorem CommandOp.code_fields (op : CommandOp) :
    op.code.extractLsb' 4 60 = 0#60 ∧ op.code.extractLsb' 0 4 ≠ 0#4 ∧ (op.code.extractLsb' 0 4).toNat < 5 := by
  cases op <;> decide

/-- R74: a word with a reserved bit set, or with `OP` 0x0 or 0x5 to 0xF, is no command word. -/
theorem ne_code_of_illegal {w : Word}
    (h : w.extractLsb' 4 60 ≠ 0#60 ∨ w.extractLsb' 0 4 = 0#4 ∨ 5 ≤ (w.extractLsb' 0 4).toNat) (op : CommandOp) :
    w ≠ op.code := by
  rintro rfl
  obtain ⟨hreserved, hzero, hfive⟩ := op.code_fields
  rcases h with h | h | h
  · exact h hreserved
  · exact hzero h
  · exact absurd hfive (by omega)

end Sys2Proof

namespace Sys2Proof.Machine

/-- R53: the offsets below the raw window lie in every engine's window, so an access there reaches a present engine. -/
theorem reaches_access_of_lt {s : State} {a : BusAccess} (he : hasEngine s.instances a.engine = true)
    (ho : a.offset < 0x10000) : reaches (.access a) s = true := by
  simp [reaches, he, Engine.inWindow, ho]

/-- An event with one answer changes its engine and nothing else. -/
theorem changesOnly_afterEvent {s : State} {ev : HostEvent} {rest : List HostEvent} {r : Response}
    (h : eventAnswers ev (s.engine (eventTarget ev)) = [r]) :
    changesOnly { s with port := rest } (afterEvent s ev rest) (eventTarget ev)
      (eventEffect ev (s.engine (eventTarget ev))) r := by
  refine ⟨?_, fun f hf => ?_, afterEvent_instances s ev rest, rfl, ?_⟩
  · rw [afterEvent_engine, if_pos rfl]
  · rw [afterEvent_engine, if_neg hf]
    exact (State.engine_withPort s rest f).symm
  · rw [afterEvent_responses, h, List.singleton_append]

/-- R193: the effect and the answer of an access that decodes to an illegal command. -/
theorem eventEffect_illegalCommand {a : BusAccess} {e : EngineKind} (h : decode a = .error (.illegalCommand e))
    (x : Engine) : eventEffect (.access a) x = x.raise .illegalCommand := by
  simp only [eventEffect, h, otherEffect]

theorem eventAnswers_illegalCommand {a : BusAccess} {e : EngineKind} (h : decode a = .error (.illegalCommand e))
    (x : Engine) : eventAnswers (.access a) x = [.done] := by
  simp only [eventAnswers, h, otherAnswer]

end Sys2Proof.Machine

namespace Sys2Proof.Proofs

/-- Settles O3: the words 1 to 4 are the codes of the four opcodes, and any other word is no opcode's code. -/
theorem commandWordsDecode : Obligations.CommandWordsDecode := by
  intro e w
  rw [decode_write_cmd]
  split_ifs with h1 h2 h3 h4
  · subst h1; cases e <;> exact decodeCommand_code _ .configure
  · subst h2; cases e <;> exact decodeCommand_code _ .insert
  · subst h3; cases e <;> exact decodeCommand_code _ .contains
  · subst h4; cases e <;> exact decodeCommand_code _ .bulkInsert
  · refine decodeCommand_of_ne_code (fun op => ?_) e
    cases op
    · exact h1
    · exact h2
    · exact h3
    · exact h4

/-- Settles O12: the word is no command word, so its access decodes to an illegal command, whose effect is `raise`. -/
theorem illegalCommandWritesErrOnly : Obligations.IllegalCommandWritesErrOnly := by
  intro s e w rest hport hengine hillegal
  have hdecode : decode (.write e 0x008 8 w) = .error (.illegalCommand e) :=
    decodeCommand_of_ne_code (ne_code_of_illegal hillegal) e
  have hreaches : reaches (.access (.write e 0x008 8 w)) s = true :=
    reaches_access_of_lt hengine (by decide : (0x008 : Nat) < 0x10000)
  refine ⟨_, (step_event hport).1 hreaches, ?_⟩
  have hchanges := changesOnly_afterEvent (rest := rest) (eventAnswers_illegalCommand hdecode (s.engine e))
  rwa [eventEffect_illegalCommand hdecode] at hchanges

end Sys2Proof.Proofs
end

section
/-! CONFIGURE (40_configure.md): what the command does to its engine by the sign of its arguments and its limits, that it changes
nothing outside its engine, and what a success and a failure leave. -/

open Sys2Proof Sys2Proof.Machine Sys2Proof.Claims

namespace Sys2Proof.Machine

/-! ### The command by kind -/

/-- R90, R91: arguments that are not positive fail first, on both kinds. -/
theorem Engine.configureBy_invalid (e : EngineKind) {x : Engine} (h : x.invalidArgs = true) :
    x.configureBy e = x.raise .invalidConfiguration := by
  cases e
  · exact Engine.dhConfigure_invalid h
  · exact Engine.bwConfigure_invalid h

/-- R91: with positive arguments only the limits are left to fail. -/
theorem Engine.configureBy_valid (e : EngineKind) {x : Engine} (h : x.invalidArgs = false) :
    x.configureBy e = x.raise .capacityExceeded ∨ ∃ c, x.configureBy e = x.latch c := by
  cases e
  · rcases x.dhConfigure_cases with ⟨hinvalid, _⟩ | ⟨_, hraise⟩ | ⟨_, _, _, hlatch⟩
    · rw [h] at hinvalid; cases hinvalid
    · exact .inl hraise
    · exact .inr ⟨_, hlatch⟩
  · rcases x.bwConfigure_cases with ⟨hinvalid, _⟩ | ⟨_, hraise⟩ | ⟨_, _, _, hlatch⟩
    · rw [h] at hinvalid; cases hinvalid
    · exact .inl hraise
    · exact .inr ⟨_, hlatch⟩

theorem Engine.configureBy_err_invalid_iff (e : EngineKind) (x : Engine) :
    (x.configureBy e).err = .invalidConfiguration ↔ x.invalidArgs = true := by
  cases h : x.invalidArgs
  · obtain hraise | ⟨c, hlatch⟩ := x.configureBy_valid e h
    · simp [hraise]
    · simp [hlatch]
  · simp [x.configureBy_invalid e h]

/-- R90, R91: the two ways to fail. -/
theorem Engine.configureBy_raises_of_err_ne_ok {e : EngineKind} {x : Engine} (h : (x.configureBy e).err ≠ .ok) :
    x.configureBy e = x.raise .invalidConfiguration ∨ x.configureBy e = x.raise .capacityExceeded := by
  cases hargs : x.invalidArgs
  · obtain hraise | ⟨c, hlatch⟩ := x.configureBy_valid e hargs
    · exact .inr hraise
    · rw [hlatch, Engine.latch_err] at h
      exact absurd rfl h
  · exact .inl (x.configureBy_invalid e hargs)

/-! ### The command in a state -/

theorem changesOnly_perform (s : State) (e : EngineKind) (f : Engine → Engine) :
    changesOnly s (s.perform e f) e (f (s.engine e)) .done :=
  ⟨s.perform_engine e f, fun _ hg => s.perform_engine_ne hg f, s.perform_instances e f, s.perform_port e f,
    s.perform_responses e f⟩

theorem exec_configureOf_of_eq {s : State} {e : EngineKind} {y : Engine} (h : (s.engine e).configureBy e = y) :
    ∃ t, exec (configureOf e) s = .next t ∧ changesOnly s t e y .done := by
  subst h
  exact ⟨_, exec_configureOf e s, changesOnly_perform s e _⟩

theorem changesOnly_of_exec_configureOf {s t : State} {e : EngineKind} (h : exec (configureOf e) s = .next t) :
    changesOnly s t e ((s.engine e).configureBy e) .done := by
  rw [exec_configureOf] at h
  cases h
  exact changesOnly_perform s e _

/-- R91, R92: the error clauses of both kinds, for limits beyond which the command raises CAPACITY_EXCEEDED. -/
theorem configureErrors_configureOf (e : EngineKind) (s : State) {limitsExceeded : Prop}
    (h : (s.engine e).invalidArgs = false → limitsExceeded →
      (s.engine e).configureBy e = (s.engine e).raise .capacityExceeded) :
    configureErrors (configureOf e) e limitsExceeded s := by
  constructor
  · intro hinvalid
    exact exec_configureOf_of_eq (Engine.configureBy_invalid e (Engine.invalidArgs_eq_true.2 hinvalid))
  · intro hvalid hexceeded
    have hargs : (s.engine e).invalidArgs = false :=
      Bool.eq_false_iff.2 fun htrue => hvalid (Engine.invalidArgs_eq_true.1 htrue)
    exact exec_configureOf_of_eq (h hargs hexceeded)

/-! ### Success, by the arguments as natural numbers -/

section Success
variable {x : Engine} {n k : Nat}

theorem Engine.invalidArgs_eq_false_of_pos (hn : x.sizeBits.toInt = n) (hk : x.numHashes.toInt = k) (hn0 : 0 < n)
    (hk0 : 0 < k) : x.invalidArgs = false :=
  Engine.invalidArgs_eq_false.2 ⟨by omega, by omega⟩

theorem lt_two_pow_of_toInt_eq {w : Word} (h : w.toInt = n) : n < 2 ^ 63 := by
  have := toInt_lt_two_pow w
  omega

theorem Engine.dhConfigure_within (hn : x.sizeBits.toInt = n) (hk : x.numHashes.toInt = k) (hn0 : 0 < n) (hk0 : 0 < k)
    (hmax : n ≤ x.params.maxDhBits) (hmaxK : k ≤ x.params.maxK) : x.dhConfigure = x.latch (x.dhCfg n k) := by
  have h := Engine.dhConfigure_ok (Engine.invalidArgs_eq_false_of_pos hn hk hn0 hk0) (by omega) (by omega)
  rwa [hn, hk] at h

theorem Engine.bwConfigure_within (hn : x.sizeBits.toInt = n) (hk : x.numHashes.toInt = k) (hn0 : 0 < n) (hk0 : 0 < k)
    (hmax : (n + 63) / 64 ≤ x.params.maxBwWords) (hmaxK : k ≤ x.params.maxK) :
    x.bwConfigure = x.latch (x.bwCfg n k) := by
  have h := Engine.bwConfigure_ok (Engine.invalidArgs_eq_false_of_pos hn hk hn0 hk0) (by omega) (by omega)
  rwa [hn, hk] at h

/-- R95: the word count of a latched BW geometry is the least power of two that is at least the requested words, and
`block_bits` is its exponent. -/
theorem Engine.bwCfg_wc_least (x : Engine) (hn : n < 2 ^ 63) (hk : k < 2 ^ 63) :
    (n + 63) / 64 ≤ (x.bwCfg n k).wc.toNat ∧ (∀ j, (n + 63) / 64 ≤ 2 ^ j → (x.bwCfg n k).wc.toNat ≤ 2 ^ j) ∧
    (x.bwCfg n k).wc.toNat = 2 ^ (x.bwCfg n k).bb.toNat := by
  obtain ⟨hwc, hbb, _⟩ := x.bwCfg_toNat hn hk
  rw [hwc, hbb]
  exact ⟨le_nextPow2 _, fun _ => nextPow2_le, rfl⟩

end Success

end Sys2Proof.Machine

namespace Sys2Proof.Proofs

/-- Settles O22: within the limits the command is `latch` of `dhCfg`, which rounds nothing. -/
theorem dhConfigureSucceeds : Obligations.DhConfigureSucceeds := by
  constructor
  · intro s
    exact configureErrors_configureOf .dh s Engine.dhConfigure_exceeded
  · intro s m k hm hk hm0 hk0 hmax hmaxK
    obtain ⟨t, hexec, hchanges⟩ :=
      exec_configureOf_of_eq (e := .dh) (Engine.dhConfigure_within hm hk hm0 hk0 hmax hmaxK)
    obtain ⟨hcm, hck, hrb⟩ := s.dh.dhCfg_toNat (lt_two_pow_of_toInt_eq hm) (lt_two_pow_of_toInt_eq hk)
    exact ⟨t, _, _, hexec, hchanges, hcm, hck, rfl, rfl, rfl, rfl, hrb, Memory.read_nil⟩

/-- Settles O23: within the limits the command is `latch` of `bwCfg`, whose word count is `nextPow2` of the requested words. -/
theorem bwConfigureSucceeds : Obligations.BwConfigureSucceeds := by
  constructor
  · intro s
    exact configureErrors_configureOf .bw s Engine.bwConfigure_exceeded
  · intro s size k hsize hk hsize0 hk0 hmax hmaxK
    obtain ⟨t, hexec, hchanges⟩ :=
      exec_configureOf_of_eq (e := .bw) (Engine.bwConfigure_within hsize hk hsize0 hk0 hmax hmaxK)
    have hsizeLt := lt_two_pow_of_toInt_eq hsize
    have hkLt := lt_two_pow_of_toInt_eq hk
    obtain ⟨hge, hleast, hpow⟩ := s.bw.bwCfg_wc_least hsizeLt hkLt
    obtain ⟨_, _, _, hcm, hrb, hck⟩ := s.bw.bwCfg_toNat hsizeLt hkLt
    exact ⟨t, _, _, hexec, hchanges, hge, hleast, hpow, hcm, hrb, hck, rfl, rfl, Memory.read_nil⟩

/-- Settles O24: `configureBy` raises INVALID_CONFIGURATION when `invalidArgs` holds, and no other case leaves that code. -/
theorem invalidConfigurationExactly : Obligations.InvalidConfigurationExactly := by
  constructor
  · intro s e hinvalid
    exact exec_configureOf_of_eq (Engine.configureBy_invalid e (Engine.invalidArgs_eq_true.2 hinvalid))
  · intro s t e hexec
    obtain ⟨hengine, _⟩ := changesOnly_of_exec_configureOf hexec
    rw [hengine, Engine.configureBy_err_invalid_iff]
    exact Engine.invalidArgs_eq_true

/-- Settles O25: a CONFIGURE whose outcome is not OK is one of the two `raise`s, which write `STATUS.ERR` only. -/
theorem failedConfigureChangesErrOnly : Obligations.FailedConfigureChangesErrOnly := by
  intro s t e hexec herr
  have hchanges := changesOnly_of_exec_configureOf hexec
  have hengine : t.engine e = (s.engine e).configureBy e := hchanges.1
  rw [hengine] at herr ⊢
  obtain hraise | hraise := Engine.configureBy_raises_of_err_ne_ok herr
  · rw [hraise] at hchanges ⊢
    exact ⟨.inl rfl, hchanges⟩
  · rw [hraise] at hchanges ⊢
    exact ⟨.inr rfl, hchanges⟩

end Sys2Proof.Proofs
end

section
/-! The operands in the key buffer (30_encoding.md R76, R77): its bytes as lists, the length field of a record, and that `ParseRecords`
returns exactly the list of keys the key buffer holds. -/

open Sys2Proof Sys2Proof.Machine Sys2Proof.Claims

namespace Sys2Proof.Machine

section Operands
variable {x : Engine}

/-! ### Key-buffer bytes as lists -/

theorem Engine.keyBytes_succ (o n : Nat) : x.keyBytes o (n + 1) = x.keyBuf.read o :: x.keyBytes (o + 1) n := by
  simp [Engine.keyBytes, List.range_succ_eq_map, Nat.add_assoc, Nat.add_comm 1]

theorem Engine.keyBytes_add (o n m : Nat) : x.keyBytes o (n + m) = x.keyBytes o n ++ x.keyBytes (o + n) m := by
  simp [Engine.keyBytes, List.range_add, Nat.add_assoc]

/-- A list is what the key buffer holds from `o` on exactly when each of its bytes is. -/
theorem Engine.keyBytes_length_eq_iff {o : Nat} {bytes : List Byte} :
    x.keyBytes o bytes.length = bytes ↔ ∀ j (h : j < bytes.length), bytes[j] = x.keyBuf.read (o + j) := by
  constructor
  · intro heq j hj
    rw [← x.getElem_keyBytes o bytes.length j (by simpa using hj)]
    simp only [heq]
  · intro hread
    refine List.ext_getElem (x.length_keyBytes o _) fun j hj hj' => ?_
    rw [x.getElem_keyBytes, hread j hj']

/-- R76: the key the key buffer holds is the operand of INSERT and CONTAINS. -/
theorem Engine.key_eq_of_holdsKey {key : List Byte} (h : holdsKey x key) : x.key = key := by
  obtain ⟨hlength, hread⟩ := h
  rw [Engine.key, ← hlength, Engine.keyBytes_length_eq_iff]
  simpa using hread

/-! ### One record -/

/-- R77: the little-endian length field of the record at offset `o`. -/
def Engine.recordLength (x : Engine) (o : Nat) : Nat :=
  (x.keyBuf.read o).toNat + 256 * (x.keyBuf.read (o + 1)).toNat

/-- R77: each length below 2^16 is given by one pair of bytes. -/
theorem Engine.recordLength_eq_iff {o n : Nat} :
    x.recordLength o = n ↔
      n < 65536 ∧ x.keyBuf.read o = BitVec.ofNat 8 n ∧ x.keyBuf.read (o + 1) = BitVec.ofNat 8 (n / 256) := by
  have hlow := (x.keyBuf.read o).isLt
  have hhigh := (x.keyBuf.read (o + 1)).isLt
  rw [Engine.recordLength, ← BitVec.toNat_inj, ← BitVec.toNat_inj, BitVec.toNat_ofNat, BitVec.toNat_ofNat]
  omega

theorem recordBytes_cons (key : List Byte) (keys : List (List Byte)) :
    recordBytes (key :: keys) =
      BitVec.ofNat 8 key.length :: BitVec.ofNat 8 (key.length / 256) :: (key ++ recordBytes keys) := by
  simp [recordBytes]

theorem length_recordBytes_cons (key : List Byte) (keys : List (List Byte)) :
    (recordBytes (key :: keys)).length = key.length + (recordBytes keys).length + 1 + 1 := by
  simp [recordBytes_cons]

/-- R77: a list of records stands at `o` when its first length field and key stand there and the other records follow them. -/
theorem Engine.keyBytes_eq_recordBytes_cons_iff {o : Nat} {key : List Byte} {keys : List (List Byte)} :
    (key.length < 65536 ∧ x.keyBytes o (recordBytes (key :: keys)).length = recordBytes (key :: keys)) ↔
      x.recordLength o = key.length ∧ x.keyBytes (o + 2) key.length = key ∧
      x.keyBytes (o + 2 + key.length) (recordBytes keys).length = recordBytes keys := by
  rw [length_recordBytes_cons, recordBytes_cons, Engine.keyBytes_succ, Engine.keyBytes_succ, Engine.keyBytes_add,
    List.cons.injEq, List.cons.injEq, List.append_eq_append_iff_of_size_eq_left (x.length_keyBytes _ _),
    Engine.recordLength_eq_iff]
  simp only [and_assoc]

/-! ### The parser -/

/-- R77: what one round of the parser's loop needs to return a list: the record lies within the length, its key is the first of the
list, and the loop returns the others from the record's end. -/
theorem Engine.parseFrom_succ_eq_some_cons_iff {len count o : Nat} {key : List Byte} {keys : List (List Byte)} :
    x.parseFrom len (count + 1) o = some (key :: keys) ↔
      x.recordLength o = key.length ∧ x.keyBytes (o + 2) key.length = key ∧ o + 2 + key.length ≤ len ∧
      x.parseFrom len count (o + 2 + key.length) = some keys := by
  have hround := x.parseFrom_succ len count o
  rw [← Engine.recordLength] at hround
  constructor
  · intro hparse
    rw [hround] at hparse
    split_ifs at hparse with hshort
    obtain ⟨rest, hrest, heq⟩ := Option.map_eq_some_iff.1 hparse
    obtain ⟨hkey, rfl⟩ := List.cons.inj heq
    have hlength : x.recordLength o = key.length := by rw [← hkey, Engine.length_keyBytes]
    rw [hlength] at hkey hrest hshort
    exact ⟨hlength, hkey, by omega, hrest⟩
  · rintro ⟨hlength, hkey, hfits, hrest⟩
    rw [hround, hlength, if_neg (by omega), hrest, Option.map_some, hkey]

theorem Engine.parseFrom_succ_ne_some_nil {len count o : Nat} : x.parseFrom len (count + 1) o ≠ some [] := by
  rw [Engine.parseFrom_succ]
  split_ifs <;> simp

/-- R77: from an offset within the length, the loop returns exactly the list of `count` records that stands there within it. -/
theorem Engine.parseFrom_eq_some_iff {len count o : Nat} {keys : List (List Byte)} (ho : o ≤ len) :
    x.parseFrom len count o = some keys ↔
      keys.length = count ∧ (∀ key ∈ keys, key.length < 65536) ∧ o + (recordBytes keys).length ≤ len ∧
      x.keyBytes o (recordBytes keys).length = recordBytes keys := by
  induction count generalizing o keys with
  | zero =>
    rw [Engine.parseFrom, Option.some.injEq, List.length_eq_zero_iff]
    constructor
    · rintro rfl
      exact ⟨rfl, by simp, ho, rfl⟩
    · rintro ⟨rfl, _⟩
      rfl
  | succ count ih =>
    cases keys with
    | nil => simp [Engine.parseFrom_succ_ne_some_nil]
    | cons key keys =>
      have hbytes := Engine.keyBytes_eq_recordBytes_cons_iff (x := x) (o := o) (key := key) (keys := keys)
      have hlen := length_recordBytes_cons key keys
      rw [Engine.parseFrom_succ_eq_some_cons_iff, List.forall_mem_cons, List.length_cons, Nat.add_right_cancel_iff]
      constructor
      · rintro ⟨hlength, hkey, hfits, hparse⟩
        obtain ⟨hcount, hshort, hwithin, hrest⟩ := (ih hfits).1 hparse
        obtain ⟨hkeyShort, hall⟩ := hbytes.2 ⟨hlength, hkey, hrest⟩
        exact ⟨hcount, ⟨hkeyShort, hshort⟩, by omega, hall⟩
      · rintro ⟨hcount, ⟨hkeyShort, hshort⟩, hwithin, hall⟩
        obtain ⟨hlength, hkey, hrest⟩ := hbytes.1 ⟨hkeyShort, hall⟩
        have hfits : o + 2 + key.length ≤ len := by omega
        exact ⟨hlength, hkey, hfits, (ih hfits).2 ⟨hcount, hshort, by omega, hrest⟩⟩

/-- R77: `ParseRecords` returns exactly the list of keys that the key buffer holds. -/
theorem Engine.records_eq_some_iff {keys : List (List Byte)} : x.records = some keys ↔ holdsRecords x keys := by
  rw [Engine.records, Engine.parseFrom_eq_some_iff (Nat.zero_le _), Engine.keyBytes_length_eq_iff]
  simp only [Nat.zero_add]
  rfl

/-- R196: `ParseRecords` raises KEY_FORMAT when the key buffer holds no list of records. -/
theorem Engine.records_eq_none_of_not_holdsRecords (h : ¬ ∃ keys, holdsRecords x keys) : x.records = none :=
  Option.eq_none_iff_forall_ne_some.2 fun keys hkeys => h ⟨keys, Engine.records_eq_some_iff.1 hkeys⟩

end Operands

end Sys2Proof.Machine
end

section
/-! The errors of the key commands (60_exceptions.md R194, R195, R196), for both kinds. -/

open Sys2Proof Sys2Proof.Machine Sys2Proof.Claims

namespace Sys2Proof.Machine

section Errors
variable {x : Engine} {c : ErrCode}

theorem Engine.insertBy_error (e : EngineKind) (h : x.keyCommandError = some c) : x.insertBy e = x.raise c := by
  cases e
  · exact Engine.dhInsert_error h
  · exact Engine.bwInsert_error h

theorem Engine.containsBy_error (e : EngineKind) (h : x.keyCommandError = some c) :
    x.containsBy e = (x.setResult false).raise c := by
  cases e
  · exact Engine.dhContains_error h
  · exact Engine.bwContains_error h

theorem Engine.bulkInsertBy_error (e : EngineKind) (h : x.keyCommandError = some c) : x.bulkInsertBy e = x.raise c := by
  cases e
  · exact Engine.dhBulkInsert_error h
  · exact Engine.bwBulkInsert_error h

theorem Engine.bulkInsertBy_format (e : EngineKind) (h : x.keyCommandError = none) (hr : x.records = none) :
    x.bulkInsertBy e = x.raise .keyFormat := by
  cases e
  · exact Engine.dhBulkInsert_format h hr
  · exact Engine.bwBulkInsert_format h hr

end Errors

/-- An instruction that an engine performs leaves what its effect leaves, and changes nothing outside the engine. -/
theorem exists_next_changesOnly {i : Instr} {s : State} {e : EngineKind} {f : Engine → Engine} {y : Engine}
    (hexec : exec i s = .next (s.perform e f)) (hf : f (s.engine e) = y) :
    ∃ t, exec i s = .next t ∧ changesOnly s t e y .done := by
  subst hf
  exact ⟨_, hexec, changesOnly_perform s e f⟩

/-- R194, R195: the error clauses of a key command whose effect writes the code, and `RESULT` = 0 if it is CONTAINS, whenever the
shared checks fail. -/
theorem keyErrors_of_perform {i : Instr} {s : State} {e : EngineKind} {f : Engine → Engine} {isContains : Bool}
    (hexec : exec i s = .next (s.perform e f))
    (herror : ∀ c, (s.engine e).keyCommandError = some c →
      f (s.engine e) = { s.engine e with err := c, result := !isContains && (s.engine e).result }) :
    keyErrors i e isContains s := by
  constructor
  · intro hunconfigured
    exact exists_next_changesOnly hexec (herror _ (Engine.keyCommandError_notConfigured hunconfigured))
  · intro hconfigured htooLong
    exact exists_next_changesOnly hexec (herror _ (Engine.keyCommandError_keyTooLong hconfigured htooLong))

theorem keyErrors_insertOf (e : EngineKind) (s : State) : keyErrors (insertOf e) e false s :=
  keyErrors_of_perform (exec_insertOf e s) fun _ => Engine.insertBy_error e

theorem keyErrors_containsOf (e : EngineKind) (s : State) : keyErrors (containsOf e) e true s :=
  keyErrors_of_perform (exec_containsOf e s) fun _ => Engine.containsBy_error e

theorem keyErrors_bulkInsertOf (e : EngineKind) (s : State) : keyErrors (bulkInsertOf e) e false s :=
  keyErrors_of_perform (exec_bulkInsertOf e s) fun _ => Engine.bulkInsertBy_error e

theorem formatError_bulkInsertOf (e : EngineKind) (s : State) : formatError (bulkInsertOf e) e s := by
  intro hconfigured hfits hnone
  exact exists_next_changesOnly (exec_bulkInsertOf e s) (Engine.bulkInsertBy_format e
    (Engine.keyCommandError_eq_none hconfigured hfits) (Engine.records_eq_none_of_not_holdsRecords hnone))

end Sys2Proof.Machine
end

section
/-! The double-hash engine (41_double_hash.md R110–R115): the probe selector as an arithmetic progression, the probe positions of a
key, and what the key commands do to the storage bits. -/

open Sys2Proof Sys2Proof.Machine Sys2Proof.Claims

namespace Sys2Proof.Machine

/-! ### The selector -/

@[simp] theorem length_dhProbes (signed : Bool) (h1 h2 : Word) (m k : Nat) : (dhProbes signed h1 h2 m k).length = k := by
  simp [dhProbes]

@[simp] theorem getElem_dhProbes {signed : Bool} {h1 h2 : Word} {m k i : Nat}
    (hi : i < (dhProbes signed h1 h2 m k).length) : (dhProbes signed h1 h2 m k)[i] = dhProbe signed h1 h2 m i := by
  simp [dhProbes]

/-- R111: the stride is a reduced digest, or 1 for a digest that reduces to 0. -/
theorem dhStride_le (signed : Bool) {m : Nat} (hm : 0 < m) (h : Word) : dhStride signed m h ≤ m := by
  have hlt := Int.emod_lt_of_pos (digestValue signed h) (by omega : (0 : Int) < m)
  have hcast := dhStride_cast signed hm h
  split_ifs at hcast <;> omega

theorem add_mod_eq_sub_ite {p b m : Nat} (hp : p < m) (hb : b ≤ m) :
    (p + b) % m = p + b - if m ≤ p + b then m else 0 := by
  split_ifs with hwrap
  · rw [Nat.mod_eq_sub_mod hwrap, Nat.mod_eq_of_lt (by omega)]
  · exact Nat.mod_eq_of_lt (by omega)

/-- R112: each position is the one before it plus the stride, with at most one subtraction of the capacity. -/
theorem dhProbe_succ (signed : Bool) (h1 h2 : Word) {m : Nat} (hm : 0 < m) (i : Nat) :
    dhProbe signed h1 h2 m (i + 1) = dhProbe signed h1 h2 m i + dhStride signed m h2 -
      if m ≤ dhProbe signed h1 h2 m i + dhStride signed m h2 then m else 0 := by
  rw [← add_mod_eq_sub_ite (dhProbe_lt signed h1 h2 hm i) (dhStride_le signed hm h2), dhProbe,
    dhProbe, Nat.mod_add_mod, Nat.succ_mul, Nat.add_assoc]

/-! ### The positions of a key -/

section Key
variable {x : Engine} {key : List Byte}

/-- R110–R112: the probed positions are the terms of the progression. -/
theorem Engine.mem_dhKeyProbes_iff (hm : 0 < x.cfg.m.toNat) {p : Nat} : p ∈ x.dhKeyProbes key ↔ isProbe x key p := by
  rw [Engine.dhKeyProbes, mem_dhProbes]
  refine exists_congr fun i => and_congr_right fun _ => ?_
  rw [eq_comm, ← Nat.cast_inj (R := Int), dhProbe_cast _ _ _ hm]
  rfl

/-- R114: membership is every probed bit being set. -/
theorem Engine.dhHasKey_iff (hm : 0 < x.cfg.m.toNat) :
    x.dhHasKey key = true ↔ ∀ p, isProbe x key p → dhBit x.storage p = true := by
  rw [Engine.dhHasKey, List.all_eq_true]
  exact forall_congr' fun p => imp_congr_left (Engine.mem_dhKeyProbes_iff hm)

end Key

/-! ### The storage after insertions -/

section Insertions
variable {x : Engine} {storage : Memory} (hm : 0 < x.cfg.m.toNat) (hwf : storage.wf = true) (keys : List (List Byte))
include hm hwf

/-- R113, R115: the bits set after the insertion of some keys are those set before and the keys' probe bits. -/
theorem Engine.dhBit_foldl_dhInsertKey_iff {p : Nat} :
    dhBit (keys.foldl x.dhInsertKey storage) p = true ↔ dhBit storage p = true ∨ ∃ key ∈ keys, isProbe x key p := by
  rw [(foldl_dhInsertKey_spec x hwf keys).2, Bool.or_eq_true, decide_eq_true_eq]
  simp only [Engine.mem_dhKeyProbes_iff hm]

/-- R113, R115: a byte in which no key has a probe bit stays. -/
theorem Engine.read_foldl_dhInsertKey_of_no_probe {a : Nat} (ha : ∀ key ∈ keys, ∀ p, isProbe x key p → p / 8 ≠ a) :
    (keys.foldl x.dhInsertKey storage).read a = storage.read a := by
  refine read_eq_of_dhBit fun b hb => ?_
  rw [Bool.eq_iff_iff, Engine.dhBit_foldl_dhInsertKey_iff hm hwf]
  refine or_iff_left ?_
  rintro ⟨key, hkey, hprobe⟩
  exact ha key hkey _ hprobe (by omega)

end Insertions

end Sys2Proof.Machine

namespace Sys2Proof.Proofs

/-- Settles O27: the i-th position is `dhProbe` at i, and `dhProbe_succ` is the step from one to the next. -/
theorem dhProbesFollowTheProgression : Obligations.DhProbesFollowTheProgression := by
  intro signed h1 h2 m k hm
  refine ⟨length_dhProbes signed h1 h2 m k, fun i hi => ?_⟩
  simp only [getElem_dhProbes]
  refine ⟨dhProbe_cast signed h1 h2 hm i, dhProbe_lt signed h1 h2 hm i, fun _ => ?_⟩
  have hstride := dhStride_cast signed hm h2
  rw [digestValue] at hstride
  rw [← hstride, dhProbe_succ signed h1 h2 hm i]
  split_ifs <;> omega

/-- Settles O28: the new storage is the old one after the insertion of the one key. -/
theorem dhInsertSetsProbeBits : Obligations.DhInsertSetsProbeBits := by
  refine ⟨keyErrors_insertOf .dh, fun s key hwf hm hconfigured hfits hkey => ?_⟩
  have heffect := Engine.dhInsert_ok (Engine.keyCommandError_eq_none hconfigured hfits)
  rw [Engine.key_eq_of_holdsKey hkey] at heffect
  obtain ⟨t, hexec, hchanges⟩ := exists_next_changesOnly (exec_insertOf .dh s) heffect
  refine ⟨t, [key].foldl s.dh.dhInsertKey s.dh.storage, hexec, hchanges, fun p => ?_, fun a ha => ?_⟩
  · simpa only [List.mem_singleton, exists_eq_left] using Engine.dhBit_foldl_dhInsertKey_iff hm hwf [key]
  · exact Engine.read_foldl_dhInsertKey_of_no_probe hm hwf [key] (List.forall_mem_singleton.2 ha)

/-- Settles O29: the result written is `dhHasKey` of the key. -/
theorem dhContainsTestsProbeBits : Obligations.DhContainsTestsProbeBits := by
  refine ⟨keyErrors_containsOf .dh, fun s key hm hconfigured hfits hkey => ?_⟩
  have heffect := Engine.dhContains_ok (Engine.keyCommandError_eq_none hconfigured hfits)
  rw [Engine.key_eq_of_holdsKey hkey] at heffect
  obtain ⟨t, hexec, hchanges⟩ := exists_next_changesOnly (exec_containsOf .dh s) heffect
  exact ⟨t, s.dh.dhHasKey key, hexec, hchanges, Engine.dhHasKey_iff hm⟩

/-- Settles O30: `ParseRecords` returns the records' keys, and the new storage is the old one after their insertion. -/
theorem dhBulkInsertSetsAllProbeBits : Obligations.DhBulkInsertSetsAllProbeBits := by
  refine ⟨fun s => ⟨keyErrors_bulkInsertOf .dh s, formatError_bulkInsertOf .dh s⟩,
    fun s keys hwf hm hconfigured hfits hkeys => ?_⟩
  have heffect := Engine.dhBulkInsert_ok (Engine.keyCommandError_eq_none hconfigured hfits)
    (Engine.records_eq_some_iff.2 hkeys)
  obtain ⟨t, hexec, hchanges⟩ := exists_next_changesOnly (exec_bulkInsertOf .dh s) heffect
  exact ⟨t, _, hexec, hchanges, fun p => Engine.dhBit_foldl_dhInsertKey_iff hm hwf keys,
    fun a => Engine.read_foldl_dhInsertKey_of_no_probe hm hwf keys⟩

end Sys2Proof.Proofs
end

section
/-! The blocked-word engine (42_blocked_word.md R140–R148): the mixing state as a counter, the bits of the mask, the bit positions of
a key in its word, and what the key commands do to the words of the storage. -/

open Sys2Proof Sys2Proof.Machine Sys2Proof.Claims

namespace Sys2Proof.Machine

/-! ### The mask -/

section Mask
variable (c : MixParams) (d : Word) (k : Nat)

/-- The bits of the mask that are 1, in rising order. -/
def bwMaskBits : List Nat := (List.range 64).filter fun b => (bwMask c d k).getLsbD b

/-- R144: the mask's bits are the drawn positions, each of which is below 64. -/
theorem mem_bwMaskBits_iff {b : Nat} : b ∈ bwMaskBits c d k ↔ ∃ j, j < k ∧ b = bwPosition c d j := by
  rw [bwMaskBits, List.mem_filter, List.mem_range, getLsbD_bwMask, decide_eq_true_eq, and_iff_right_iff_imp]
  rintro ⟨j, _, rfl⟩
  exact bwPosition_lt c d j

theorem length_bwMaskBits_pos (hk : 0 < k) : 0 < (bwMaskBits c d k).length :=
  List.length_pos_of_mem ((mem_bwMaskBits_iff c d k).2 ⟨0, hk, rfl⟩)

/-- R144: `k` draws set at most `k` bits, because the mask's bits are distinct and each is one of the draws. -/
theorem length_bwMaskBits_le : (bwMaskBits c d k).length ≤ k := by
  have hnodup : (bwMaskBits c d k).Nodup := List.nodup_range.filter _
  have hdrawn : bwMaskBits c d k ⊆ (List.range k).map (bwPosition c d) := by
    intro b hb
    obtain ⟨j, hj, rfl⟩ := (mem_bwMaskBits_iff c d k).1 hb
    exact List.mem_map_of_mem (List.mem_range.2 hj)
  simpa using (hnodup.subperm hdrawn).length_le

theorem length_bwMaskBits_le_wordBits : (bwMaskBits c d k).length ≤ 64 := by
  simpa [bwMaskBits] using List.length_filter_le (fun b => (bwMask c d k).getLsbD b) (List.range 64)

end Mask

/-! ### The bits of a word -/

/-- R52: bit `b` of word `w` is bit `64 * w + b` of the storage. -/
theorem wordBit_eq_dhBit (m : Memory) (w b : Nat) : wordBit m w b = dhBit m (64 * w + b) := by
  have hbyte : (64 * w + b) / 8 = 8 * w + b / 8 := by omega
  have hbit : (64 * w + b) % 8 = b % 8 := by omega
  rw [wordBit, dhBit, hbyte, hbit]

/-! ### The word and the positions of a key -/

section Key
variable {x : Engine} {key : List Byte}

theorem Engine.bwKeyWord_eq_selectedWord (hbb : x.cfg.bb.toNat ≤ 57) : x.bwKeyWord key = selectedWord x key :=
  bwIndex_eq _ hbb

/-- R142, R144: the bits of a key's mask are its positions. -/
theorem Engine.getLsbD_bwKeyMask_iff {b : Nat} : (x.bwKeyMask key).getLsbD b = true ↔ isPosition x key b := by
  rw [Engine.bwKeyMask, getLsbD_bwMask, decide_eq_true_eq]
  simp only [bwPosition_eq, mixState_eq]
  rfl

theorem isPosition_lt {b : Nat} (h : isPosition x key b) : b < 64 := by
  obtain ⟨j, _, rfl⟩ := h
  exact Nat.mod_lt _ (by omega)

/-- R147: membership is every position being set in the selected word. -/
theorem Engine.bwHasKey_iff_wordBit (hbb : x.cfg.bb.toNat ≤ 57) :
    x.bwHasKey key = true ↔ ∀ b, isPosition x key b → wordBit x.storage (selectedWord x key) b = true := by
  rw [bwHasKey_iff, Engine.bwKeyWord_eq_selectedWord hbb]
  simp only [Engine.getLsbD_bwKeyMask_iff, wordBit_eq_dhBit]
  exact ⟨fun h b hb => h b (isPosition_lt hb) hb, fun h b _ hb => h b hb⟩

end Key

/-! ### The storage after insertions -/

section Insertions
variable {x : Engine} {storage : Memory} (hbb : x.cfg.bb.toNat ≤ 57) (hwf : storage.wf = true) (keys : List (List Byte))
include hbb hwf

/-- R146, R148: the bits of a word set after the insertion of some keys are those set before and the positions of the keys that
select the word. -/
theorem Engine.wordBit_foldl_bwInsertKey_iff {w b : Nat} (hb : b < 64) :
    wordBit (keys.foldl x.bwInsertKey storage) w b = true ↔
      wordBit storage w b = true ∨ ∃ key ∈ keys, selectedWord x key = w ∧ isPosition x key b := by
  have hword : (64 * w + b) / 64 = w := by omega
  have hbit : (64 * w + b) % 64 = b := by omega
  rw [wordBit_eq_dhBit, wordBit_eq_dhBit, (foldl_bwInsertKey_spec x hwf keys).2, Bool.or_eq_true, decide_eq_true_eq,
    hword, hbit]
  simp only [Engine.bwKeyWord_eq_selectedWord hbb, Engine.getLsbD_bwKeyMask_iff, eq_comm (a := w)]

/-- R146, R148: a byte of a word that no key selects stays. -/
theorem Engine.read_foldl_bwInsertKey_of_not_selected {a : Nat} (ha : ∀ key ∈ keys, a / 8 ≠ selectedWord x key) :
    (keys.foldl x.bwInsertKey storage).read a = storage.read a := by
  refine read_eq_of_dhBit fun b hb => ?_
  have hword : (8 * a + b) / 64 = a / 8 := by omega
  rw [Bool.eq_iff_iff, (foldl_bwInsertKey_spec x hwf keys).2, Bool.or_eq_true, decide_eq_true_eq, hword]
  refine or_iff_left ?_
  rintro ⟨key, hkey, hselected, _⟩
  exact ha key hkey (hselected.trans (Engine.bwKeyWord_eq_selectedWord hbb))

end Insertions

end Sys2Proof.Machine

namespace Sys2Proof.Proofs

/-- Settles O31: `mixState_eq` read as a number; reducing the count modulo 2^64 first does not change the sum. -/
theorem mixingStateIsLinearCounter : Obligations.MixingStateIsLinearCounter := by
  intro c d j
  rw [mixState_eq, BitVec.toNat_add, BitVec.toNat_mul, BitVec.toNat_ofNat, Nat.add_mod_mod, Nat.add_mod, Nat.mod_mul_mod,
    ← Nat.add_mod]

/-- Settles O32, by the selector's own lemmas. -/
theorem blockIndexIsTopBits : Obligations.BlockIndexIsTopBits :=
  fun d _ hbb => ⟨bwIndex_eq d hbb, bwIndex_lt d hbb⟩

/-- Settles O34: the first draw is a bit of the mask, and the mask's bits are distinct draws below 64. -/
theorem maskHasThePositions : Obligations.MaskHasThePositions := by
  intro c d k hk
  refine ⟨fun b => ?_, length_bwMaskBits_pos c d k hk,
    le_min (length_bwMaskBits_le c d k) (length_bwMaskBits_le_wordBits c d k)⟩
  rw [getLsbD_bwMask, decide_eq_true_eq]
  simp only [bwPosition_eq]

/-- Settles O35: the new storage is the old one after the insertion of the one key. -/
theorem bwInsertOrsOneWord : Obligations.BwInsertOrsOneWord := by
  refine ⟨keyErrors_insertOf .bw, fun s key hwf hbb hconfigured hfits hkey => ?_⟩
  have heffect := Engine.bwInsert_ok (Engine.keyCommandError_eq_none hconfigured hfits)
  rw [Engine.key_eq_of_holdsKey hkey] at heffect
  obtain ⟨t, hexec, hchanges⟩ := exists_next_changesOnly (exec_insertOf .bw s) heffect
  refine ⟨t, [key].foldl s.bw.bwInsertKey s.bw.storage, hexec, hchanges, fun b hb => ?_, fun a ha => ?_⟩
  · simpa only [List.mem_singleton, exists_eq_left, true_and] using
      Engine.wordBit_foldl_bwInsertKey_iff hbb hwf [key] (w := selectedWord s.bw key) hb
  · exact Engine.read_foldl_bwInsertKey_of_not_selected hbb hwf [key] (List.forall_mem_singleton.2 ha)

/-- Settles O36: the result written is `bwHasKey` of the key. -/
theorem bwContainsTestsOneWord : Obligations.BwContainsTestsOneWord := by
  refine ⟨keyErrors_containsOf .bw, fun s key hbb hconfigured hfits hkey => ?_⟩
  have heffect := Engine.bwContains_ok (Engine.keyCommandError_eq_none hconfigured hfits)
  rw [Engine.key_eq_of_holdsKey hkey] at heffect
  obtain ⟨t, hexec, hchanges⟩ := exists_next_changesOnly (exec_containsOf .bw s) heffect
  exact ⟨t, s.bw.bwHasKey key, hexec, hchanges, Engine.bwHasKey_iff_wordBit hbb⟩

/-- Settles O37: `ParseRecords` returns the records' keys, and the new storage is the old one after their insertion. -/
theorem bwBulkInsertOrsWords : Obligations.BwBulkInsertOrsWords := by
  refine ⟨fun s => ⟨keyErrors_bulkInsertOf .bw s, formatError_bulkInsertOf .bw s⟩,
    fun s keys hwf hbb hconfigured hfits hkeys => ?_⟩
  have heffect := Engine.bwBulkInsert_ok (Engine.keyCommandError_eq_none hconfigured hfits)
    (Engine.records_eq_some_iff.2 hkeys)
  obtain ⟨t, hexec, hchanges⟩ := exists_next_changesOnly (exec_bulkInsertOf .bw s) heffect
  exact ⟨t, _, hexec, hchanges, fun w b => Engine.wordBit_foldl_bwInsertKey_iff hbb hwf keys,
    fun a => Engine.read_foldl_bwInsertKey_of_not_selected hbb hwf keys⟩

end Sys2Proof.Proofs
end

section
/-! The two accesses with an alignment rule (43_accessors.md R171, R174): WRITE_KEYBUF and READ_RAW by the alignment of their offset,
and the value a raw read answers as the sum of its bytes. -/

open Sys2Proof Sys2Proof.Machine Sys2Proof.Claims

namespace Sys2Proof.Machine

/-- A state after an answer differs in that answer only. -/
theorem answersOnly_respond (s : State) (r : Response) : answersOnly s (s.respond r) r :=
  ⟨s.respond_engine r, s.respond_instances r, s.respond_port r, s.respond_responses r⟩

section Alignment
variable {i : Nat} {n : AccessSize} (e : EngineKind) (s : State)

/-- R171: an aligned WRITE_KEYBUF is a key-buffer write performed by the engine. -/
theorem exec_writeKeyBuf_aligned (v : Word) (h : i % n.bytes = 0) :
    exec (.writeKeyBuf e i n v) s = .next (s.perform e fun x => x.writeKey i n.bytes v) := by
  rw [exec, execWriteKeyBuf, if_pos h]

/-- R56, R171: a misaligned WRITE_KEYBUF is answered by a bus error. -/
theorem exec_writeKeyBuf_misaligned (v : Word) (h : i % n.bytes ≠ 0) :
    exec (.writeKeyBuf e i n v) s = .next (s.respond .busError) := by
  rw [exec, execWriteKeyBuf, if_neg h]

/-- R174: an aligned READ_RAW is answered by the engine's raw bytes. -/
theorem exec_readRaw_aligned (h : i % n.bytes = 0) :
    exec (.readRaw e i n) s = .next (s.answer ((s.engine e).readRaw i n.bytes)) := by
  rw [exec, execReadRaw, if_pos h]

/-- R57, R174: a misaligned READ_RAW is answered by a bus error. -/
theorem exec_readRaw_misaligned (h : i % n.bytes ≠ 0) :
    exec (.readRaw e i n) s = .next (s.respond .busError) := by
  rw [exec, execReadRaw, if_neg h]

end Alignment

/-- The little-endian value of some bytes is their weighted sum (R50, R56, R174). -/
theorem littleEndian_eq_bytesValue (byte : Nat → Byte) (a n : Nat) :
    BitVec.ofNat 64 (littleEndian byte a n) = bytesValue byte a n := by
  rw [littleEndian_eq_sum, bytesValue]

/-- R174: a raw read is the sum of the storage bytes below `cfg.RB`. -/
theorem Engine.readRaw_eq_bytesValue (x : Engine) (a n : Nat) :
    x.readRaw a n = bytesValue (fun b => if b < x.cfg.rb.toNat then x.storage.read b else 0) a n :=
  littleEndian_eq_bytesValue x.rawByte a n

end Sys2Proof.Machine

namespace Sys2Proof.Proofs

/-- Settles O18: the aligned write is `writeKey`, whose bytes `writeKey_spec` gives; the misaligned one is only an answer. -/
theorem keyBufferWriteStoresBytes : Obligations.KeyBufferWriteStoresBytes := by
  constructor
  · intro s e k n v hmisaligned
    exact ⟨_, exec_writeKeyBuf_misaligned e s v hmisaligned, answersOnly_respond s .busError⟩
  · intro s e k n v hwf haligned
    obtain ⟨_, hread⟩ := (s.engine e).writeKey_spec hwf k n.bytes v
    obtain ⟨t, hexec, hchanges⟩ := exists_next_changesOnly (exec_writeKeyBuf_aligned e s v haligned) rfl
    exact ⟨t, _, hexec, hchanges, hread⟩

/-- Settles O20: the aligned read answers `readRaw`, which is the sum of the raw bytes; the misaligned one is only an answer. -/
theorem rawReadReturnsStorage : Obligations.RawReadReturnsStorage := by
  constructor
  · intro s e a n hmisaligned
    exact ⟨_, exec_readRaw_misaligned e s hmisaligned, answersOnly_respond s .busError⟩
  · intro s e a n haligned
    rw [← Engine.readRaw_eq_bytesValue]
    exact ⟨_, exec_readRaw_aligned e s haligned, answersOnly_respond s _⟩

end Sys2Proof.Proofs
end

section
/-! The errors of the key commands as statements of their own (60_exceptions.md R194, R195, R196, R198): each is read off the error
clauses `keyErrors` and `formatError` of the commands. -/

open Sys2Proof Sys2Proof.Machine Sys2Proof.Claims

namespace Sys2Proof.Proofs

/-- Settles O38: the NOT_CONFIGURED clause of each of the three key commands. -/
theorem notConfiguredHasNoEffect : Obligations.NotConfiguredHasNoEffect := by
  intro s e hunconfigured
  obtain ⟨hinsert, _⟩ := keyErrors_insertOf e s
  obtain ⟨hbulkInsert, _⟩ := keyErrors_bulkInsertOf e s
  obtain ⟨hcontains, _⟩ := keyErrors_containsOf e s
  exact ⟨hinsert hunconfigured, hbulkInsert hunconfigured, hcontains hunconfigured⟩

/-- Settles O39: the KEY_TOO_LONG clause of each of the three key commands. -/
theorem keyTooLongHasNoEffect : Obligations.KeyTooLongHasNoEffect := by
  intro s e hconfigured htooLong
  obtain ⟨_, hinsert⟩ := keyErrors_insertOf e s
  obtain ⟨_, hbulkInsert⟩ := keyErrors_bulkInsertOf e s
  obtain ⟨_, hcontains⟩ := keyErrors_containsOf e s
  exact ⟨hinsert hconfigured htooLong, hbulkInsert hconfigured htooLong, hcontains hconfigured htooLong⟩

/-- Settles O40: `ParseRecords` finds exactly the lists the key buffer holds (`Engine.records_eq_some_iff`), so without one the
format clause of BULK_INSERT applies. -/
theorem keyFormatHasNoEffect : Obligations.KeyFormatHasNoEffect := by
  intro s e hconfigured hfits hnone
  exact formatError_bulkInsertOf e s hconfigured hfits hnone

end Sys2Proof.Proofs
end

section
/-! Encoding and decoding (30_encoding.md R70–R79; 20_memory.md R53–R57): what the decoder reads in each region of an
engine's window, and that it and the encoder are inverse to each other. -/

open Sys2Proof Sys2Proof.Machine Sys2Proof.Claims

namespace Sys2Proof

/-! ### The regions of the window -/

/-- The two windows begin at multiples of every access size, so an offset in one is aligned when its index is. -/
theorem window_mod_iff {base k : Nat} {n : AccessSize} (hbase : base % 8 = 0) :
    (base + k) % n.bytes = 0 ↔ k % n.bytes = 0 := by
  rw [← Nat.dvd_iff_mod_eq_zero, ← Nat.dvd_iff_mod_eq_zero]
  exact Nat.dvd_add_right ((bytes_dvd n).trans (Nat.dvd_of_mod_eq_zero hbase))

section Regions
variable {e : EngineKind} {o : Nat} {n : AccessSize}

/-- R54, R55: an aligned 64-bit read of the register page is decoded by the register at its offset. -/
theorem decode_read_page (h : o < 0x1000) (ha : o % 8 = 0) : decode (.read e o 8) = decodeRegRead e (regAt o) := by
  rw [decode, decodeRead, if_pos h, if_pos (by simp [registerAccess, ha])]

/-- R54, R55: an aligned 64-bit write of the register page is decoded by the register at its offset. -/
theorem decode_write_page {v : Word} (h : o < 0x1000) (ha : o % 8 = 0) :
    decode (.write e o 8 v) = decodeRegWrite e v (regAt o) := by
  rw [decode, decodeWrite, if_pos h, if_pos (by simp [registerAccess, ha])]

/-- R56: an aligned write of the key-buffer window is WRITE_KEYBUF. -/
theorem decode_write_keyBuf {k : Nat} {v : Word} (hk : k < 0x1000) (ha : k % n.bytes = 0) :
    decode (.write e (0x1000 + k) n.bytes v) = .ok (.writeKeyBuf e k n (lowBytes n.bytes v)) := by
  have hsize : alignedSize (0x1000 + k) n.bytes = some n :=
    alignedSize_eq_some.2 ⟨rfl, (window_mod_iff rfl).2 ha⟩
  simp only [decode, decodeWrite, hsize]
  rw [if_neg (by omega), if_pos (by omega), Nat.add_sub_cancel_left]

/-- R56: an aligned read of the key-buffer window is no row of the table. -/
theorem decode_read_keyBuf {k : Nat} (hk : k < 0x1000) (ha : k % n.bytes = 0) :
    decode (.read e (0x1000 + k) n.bytes) = .error (.readKeyBuf e k n) := by
  have hsize : alignedSize (0x1000 + k) n.bytes = some n :=
    alignedSize_eq_some.2 ⟨rfl, (window_mod_iff rfl).2 ha⟩
  simp only [decode, decodeRead, hsize]
  rw [if_neg (by omega), if_pos (by omega), Nat.add_sub_cancel_left]

/-- R57: an aligned read of the reserved range. -/
theorem decode_read_reserved (h : 0x2000 ≤ o) (h' : o < 0x10000) (ha : o % n.bytes = 0) :
    decode (.read e o n.bytes) = .error (.readZero e) := by
  simp only [decode, decodeRead, alignedSize_eq_some.2 ⟨rfl, ha⟩]
  rw [if_neg (by omega), if_neg (by omega), if_pos h']

/-- R57, R174: an aligned read of the raw window is READ_RAW. -/
theorem decode_read_raw {a : Nat} (ha : a % n.bytes = 0) :
    decode (.read e (0x10000 + a) n.bytes) = .ok (.readRaw e a n) := by
  have hsize : alignedSize (0x10000 + a) n.bytes = some n :=
    alignedSize_eq_some.2 ⟨rfl, (window_mod_iff rfl).2 ha⟩
  simp only [decode, decodeRead, hsize]
  rw [if_neg (by omega), if_neg (by omega), if_neg (by omega), Nat.add_sub_cancel_left]

/-- R57, R175: an aligned write above the key-buffer window. -/
theorem decode_write_ignored {v : Word} (h : 0x2000 ≤ o) (ha : o % n.bytes = 0) :
    decode (.write e o n.bytes v) = .error (.ignoreWrite e) := by
  simp only [decode, decodeWrite, alignedSize_eq_some.2 ⟨rfl, ha⟩]
  rw [if_neg (by omega), if_neg (by omega)]

end Regions

/-- R54, R56, R57: an access of `w` bytes at `o` that its region does not accept: its width is wrong or it is misaligned. -/
def badAccess (o w : Nat) : Prop :=
  o < 0x1000 ∧ (w ≠ 8 ∨ o % 8 ≠ 0) ∨
    0x1000 ≤ o ∧ ((w ≠ 1 ∧ w ≠ 2 ∧ w ≠ 4 ∧ w ≠ 8) ∨ o % w ≠ 0)

/-- R199: a bad access, read or write, decodes to a bus error. -/
theorem decode_badAccess {e : EngineKind} {o w : Nat} (h : badAccess o w) :
    decode (.read e o w) = .error (.busError e) ∧ ∀ v, decode (.write e o w v) = .error (.busError e) := by
  rcases h with ⟨hpage, hbad⟩ | ⟨hpage, hbad⟩
  · have hno : registerAccess o w = false := by
      rw [registerAccess, Bool.and_eq_false_iff]
      simpa using hbad
    simp [decode, decodeRead, decodeWrite, hpage, hno]
  · simp [decode, decodeRead, decodeWrite, Nat.not_lt.2 hpage, alignedSize_eq_none.2 hbad]

/-- R53: an access that decodes to an instruction is one that its region accepts. -/
theorem not_badAccess_of_decode_read {e : EngineKind} {o w : Nat} {i : Instr} (h : decode (.read e o w) = .ok i) :
    ¬ badAccess o w := by
  intro hbad
  rw [(decode_badAccess hbad).1] at h
  cases h

theorem not_badAccess_of_decode_write {e : EngineKind} {o w : Nat} {v : Word} {i : Instr}
    (h : decode (.write e o w v) = .ok i) : ¬ badAccess o w := by
  intro hbad
  rw [(decode_badAccess hbad).2] at h
  cases h

/-- An access that its region accepts: a 64-bit one of the register page, or one of an access size above it. -/
theorem not_badAccess_iff {o w : Nat} :
    ¬ badAccess o w ↔
      (o < 0x1000 ∧ w = 8 ∧ o % 8 = 0) ∨ (0x1000 ≤ o ∧ ∃ n : AccessSize, w = n.bytes ∧ o % n.bytes = 0) := by
  have hsize : (∃ n : AccessSize, w = n.bytes ∧ o % n.bytes = 0) ↔
      ¬ ((w ≠ 1 ∧ w ≠ 2 ∧ w ≠ 4 ∧ w ≠ 8) ∨ o % w ≠ 0) := by
    simp only [← alignedSize_eq_some, ← alignedSize_eq_none, ← ne_eq, Option.ne_none_iff_exists']
  rw [hsize, badAccess]
  omega

/-! ### What the encoder inverts -/

theorem decodeCommand_eq_ok {e : EngineKind} {w : Word} {i : Instr} (h : decodeCommand e w = .ok i) :
    ∃ op : CommandOp, w = op.code ∧ i = commandInstr e op := by
  rw [decodeCommand] at h
  cases hop : commandOp w with
  | none => rw [hop] at h; cases h
  | some op => rw [hop] at h; cases h; exact ⟨op, commandOp_eq_some.1 hop, rfl⟩

theorem encode_commandInstr (e : EngineKind) (op : CommandOp) :
    (commandInstr e op).wf = true ∧ encode (commandInstr e op) = .write e 0x008 8 op.code := by
  cases e <;> cases op <;> exact ⟨rfl, rfl⟩

/-- R55, R78: a row read from the register page is encoded by the read it was decoded from. -/
theorem encode_of_decodeRegRead {e : EngineKind} {o : Nat} {i : Instr} (h : decodeRegRead e (regAt o) = .ok i) :
    i.wf = true ∧ encode i = .read e o 8 := by
  cases hreg : regAt o with
  | none => rw [hreg] at h; cases h
  | some r =>
    rw [hreg] at h
    obtain rfl := offset_of_regAt hreg
    cases r
    case id | status | capacityBits | kEff | rawBytes | blockBits => cases h; exact ⟨rfl, rfl⟩
    all_goals cases h

/-- R55, R170: a row written to the register page is encoded by the write it was decoded from. -/
theorem encode_of_decodeRegWrite {e : EngineKind} {o : Nat} {v : Word} {i : Instr}
    (h : decodeRegWrite e v (regAt o) = .ok i) : i.wf = true ∧ encode i = .write e o 8 v := by
  cases hreg : regAt o with
  | none => rw [hreg] at h; cases h
  | some r =>
    rw [hreg] at h
    obtain rfl := offset_of_regAt hreg
    cases r
    case cmd =>
      obtain ⟨op, rfl, rfl⟩ := decodeCommand_eq_ok h
      exact encode_commandInstr e op
    case sizeBits | numHashes | seed1 | seed2 | keyLen | keyCount => cases h; exact ⟨rfl, rfl⟩
    all_goals cases h

/-- R56, R57, R174: above the register page only a read of the raw window is a row, and the row encodes it. -/
theorem encode_of_decode_read_window {e : EngineKind} {o : Nat} {n : AccessSize} {i : Instr} (ho : 0x1000 ≤ o)
    (ha : o % n.bytes = 0) (h : decode (.read e o n.bytes) = .ok i) :
    i.wf = true ∧ encode i = .read e o n.bytes := by
  by_cases hkeyBuf : o < 0x2000
  · obtain ⟨k, rfl⟩ := Nat.exists_eq_add_of_le ho
    rw [decode_read_keyBuf (by omega) ((window_mod_iff rfl).1 ha)] at h
    cases h
  by_cases hreserved : o < 0x10000
  · rw [decode_read_reserved (by omega) hreserved ha] at h
    cases h
  · obtain ⟨k, rfl⟩ := Nat.exists_eq_add_of_le (Nat.not_lt.1 hreserved)
    have hk : k % n.bytes = 0 := (window_mod_iff rfl).1 ha
    rw [decode_read_raw hk] at h
    cases h
    exact ⟨decide_eq_true hk, rfl⟩

/-- R56, R57, R171: above the register page only a write of the key-buffer window is a row, and the row encodes the bytes that the
write carries. -/
theorem encode_of_decode_write_window {e : EngineKind} {o : Nat} {n : AccessSize} {v : Word} {i : Instr} (ho : 0x1000 ≤ o)
    (ha : o % n.bytes = 0) (h : decode (.write e o n.bytes v) = .ok i) :
    i.wf = true ∧ encode i = .write e o n.bytes (lowBytes n.bytes v) := by
  by_cases hkeyBuf : o < 0x2000
  · obtain ⟨k, rfl⟩ := Nat.exists_eq_add_of_le ho
    have hk : k < 0x1000 := by omega
    have hk' : k % n.bytes = 0 := (window_mod_iff rfl).1 ha
    rw [decode_write_keyBuf hk hk'] at h
    cases h
    exact ⟨by simp [Instr.wf, hk, hk', lowBytes_lt], rfl⟩
  · rw [decode_write_ignored (Nat.not_lt.1 hkeyBuf) ha] at h
    cases h

end Sys2Proof

namespace Sys2Proof.Proofs

/-- Settles O1, row by row: the commands by their codes, the register rows by their offsets, the two windows by their regions. -/
theorem decodeOfEncodeIsInstruction : Obligations.DecodeOfEncodeIsInstruction := by
  intro i hwf
  cases i
  case dhConfigure => exact decodeCommand_code .dh .configure
  case dhInsert => exact decodeCommand_code .dh .insert
  case dhContains => exact decodeCommand_code .dh .contains
  case dhBulkInsert => exact decodeCommand_code .dh .bulkInsert
  case bwConfigure => exact decodeCommand_code .bw .configure
  case bwInsert => exact decodeCommand_code .bw .insert
  case bwContains => exact decodeCommand_code .bw .contains
  case bwBulkInsert => exact decodeCommand_code .bw .bulkInsert
  case writeKeyBuf e k n v =>
    simp only [Instr.wf, Bool.and_eq_true, decide_eq_true_eq] at hwf
    obtain ⟨⟨hk, haligned⟩, hv⟩ := hwf
    rw [encode, decode_write_keyBuf hk haligned, lowBytes_of_lt hv]
  case readRaw e a n => exact decode_read_raw (by simpa [Instr.wf] using hwf)
  all_goals rfl

/-- Settles O2: an access that decodes is one its region accepts, and in each region the row decoded there encodes it. -/
theorem encodeOfDecodeIsAccess : Obligations.EncodeOfDecodeIsAccess := by
  intro a i h
  cases a with
  | read e o w =>
    rcases not_badAccess_iff.1 (not_badAccess_of_decode_read h) with ⟨hpage, rfl, ha⟩ | ⟨hpage, n, rfl, ha⟩
    · rw [decode_read_page hpage ha] at h
      exact encode_of_decodeRegRead h
    · exact encode_of_decode_read_window hpage ha h
  | write e o w v =>
    rcases not_badAccess_iff.1 (not_badAccess_of_decode_write h) with ⟨hpage, rfl, ha⟩ | ⟨hpage, n, rfl, ha⟩
    · rw [decode_write_page hpage ha] at h
      rw [BusAccess.carried, lowBytes_eight]
      exact encode_of_decodeRegWrite h
    · exact encode_of_decode_write_window hpage ha h

/-- Settles O4: each access is the encoding of the row named, so O1 applies. -/
theorem tabledAccessesDecode : Obligations.TabledAccessesDecode :=
  ⟨decodeOfEncodeIsInstruction .dhConfigure rfl, decodeOfEncodeIsInstruction .bwBulkInsert rfl,
    decodeOfEncodeIsInstruction (.writeSizeBits .dh 0x3E8#64) rfl,
    decodeOfEncodeIsInstruction (.writeKeyBuf .dh 0 .b4 0x68706C61#64) rfl,
    decodeOfEncodeIsInstruction (.readCapacityBits .bw) rfl,
    decodeOfEncodeIsInstruction (.readRaw .bw 13 .b1) rfl⟩

end Sys2Proof.Proofs
end

section
/-! What a step does to one engine, as the update of the engine's record it makes, and the whole-machine rules that are read
off the updates: which events change the configuration, `STATUS`, the memories and the parameters (10_state.md R24, R25, R39,
R41, R42, R50; 60_exceptions.md R192). -/

open Sys2Proof Sys2Proof.Machine Sys2Proof.Claims

namespace Sys2Proof.Machine

/-! ### The updates of an event -/

/-- Everything the event `ev` can do to the engine of kind `e` in state `x`, with each command replaced by the update its outcome
makes. -/
inductive EventUpdate (e : EngineKind) (ev : HostEvent) (x : Engine) : Engine → Prop where
  | reset (h : ev = .reset e) : EventUpdate e ev x x.reset
  | register (y : Engine) (hparams : y.params = x.params) (hconfigured : y.configured = x.configured)
      (hresult : y.result = x.result) (herr : y.err = x.err) (hcfg : y.cfg = x.cfg) (hkeyBuf : y.keyBuf = x.keyBuf)
      (hstorage : y.storage = x.storage) (hseed2 : e = .bw → y.seed2 = x.seed2) : EventUpdate e ev x y
  | keyBuffer (i n : Nat) (v : Word)
      (h : ∃ offset width w, ev = .access (.write e offset width w) ∧ 0x1000 ≤ offset ∧ offset < 0x2000) :
      EventUpdate e ev x (x.writeKey i n v)
  | raised (c : ErrCode) (h : ∃ w, ev = .access (.write e 8 8 w)) (hc : c ≠ .ok) : EventUpdate e ev x (x.raise c)
  | latched (c : Cfg) (h : isConfigure e ev) (hw : ev = .access (.write e 8 8 1#64))
      (hlatch : x.configureBy e = x.latch c) : EventUpdate e ev x (x.latch c)
  | inserted (keys : List (List Byte))
      (h : ∃ w, ev = .access (.write e 8 8 w) ∧ (w = 2#64 ∨ w = 4#64)) (hchecks : x.keyCommandError = none) :
      EventUpdate e ev x (x.inserted (keys.foldl (insertKeyOf e x) x.storage))
  | contained (r : Bool) (c : ErrCode) (h : ∃ a, ev = .access a ∧ decode a = .ok (containsOf e))
      (hw : ev = .access (.write e 8 8 3#64)) (hr : x.configured = false → r = false) :
      EventUpdate e ev x ((x.setResult r).raise c)

theorem EventUpdate.unchanged {e : EngineKind} {ev : HostEvent} {x : Engine} : EventUpdate e ev x x :=
  .register x rfl rfl rfl rfl rfl rfl rfl fun _ => rfl

theorem KeyCommandCase.update {e : EngineKind} {ev : HostEvent} {x y : Engine} {w : Word}
    (h : KeyCommandCase (insertKeyOf e) x y) (hev : ev = .access (.write e 8 8 w)) (hw : w = 2#64 ∨ w = 4#64) :
    EventUpdate e ev x y := by
  cases h with
  | raised c hc => exact .raised c ⟨w, hev⟩ hc
  | inserted keys hchecks => exact .inserted keys ⟨w, hev, hw⟩ hchecks

theorem EventCase.update {e : EngineKind} {ev : HostEvent} {x y : Engine} (h : EventCase e ev x y) :
    EventUpdate e ev x y := by
  cases h with
  | reset h => exact .reset h
  | unchanged => exact .unchanged
  | register y h hseed2 =>
    obtain ⟨hparams, hconfigured, hresult, herr, hcfg, hkeyBuf, hstorage⟩ := h
    exact .register y hparams hconfigured hresult herr hcfg hkeyBuf hstorage hseed2
  | keyBuffer i n v h => exact .keyBuffer i n v h
  | illegal w h => exact .raised _ ⟨w, h⟩ (by simp)
  | configure h hw =>
    obtain ⟨c, hc, heq⟩ | ⟨c, heq⟩ := x.configureBy_cases e
    · rw [heq]; exact .raised c ⟨_, hw⟩ hc
    · rw [heq]; exact .latched c h hw heq
  | insert hw => exact (x.insertBy_cases e).update hw (.inl rfl)
  | contains h hw =>
    obtain ⟨r, c, heq, hr⟩ := x.containsBy_cases e
    rw [heq]; exact .contained r c h hw hr
  | bulkInsert hw => exact (x.bulkInsertBy_cases e).update hw (.inr rfl)

/-- A step that changes an engine made one of the updates of the oldest event. -/
theorem step_update_of_ne {s t : State} {e : EngineKind} (h : step s = .next t) (hne : t.engine e ≠ s.engine e) :
    ∃ ev rest, s.port = ev :: rest ∧ EventUpdate e ev (s.engine e) (t.engine e) := by
  obtain heq | ⟨ev, rest, hport, hcase⟩ := step_engine_cases h e
  · exact absurd heq hne
  · exact ⟨ev, rest, hport, hcase.update⟩

/-- What every update keeps, every step keeps. -/
theorem step_keeps {P : EngineKind → Engine → Prop}
    (hP : ∀ {e ev x y}, EventUpdate e ev x y → P e x → P e y) {s t : State} (h : step s = .next t) {e : EngineKind}
    (hs : P e (s.engine e)) : P e (t.engine e) := by
  obtain heq | ⟨ev, rest, _, hcase⟩ := step_engine_cases h e
  · rwa [heq]
  · exact hP hcase.update hs

/-! ### What an update changes -/

section Updates
variable {e : EngineKind} {ev : HostEvent} {x y : Engine} (h : EventUpdate e ev x y)
include h

theorem EventUpdate.params_eq : y.params = x.params := by
  cases h with
  | register _ hparams => exact hparams
  | _ => rfl

/-- R24, R42: the configuration and CONFIGURED change together, by reset or by a successful CONFIGURE. -/
theorem EventUpdate.configuration :
    (ev = .reset e ∧ y.configured = false) ∨ (isConfigure e ev ∧ y.err = .ok ∧ y.configured = true) ∨
      (y.cfg = x.cfg ∧ y.configured = x.configured) := by
  cases h with
  | reset h => exact .inl ⟨h, rfl⟩
  | latched c h => exact .inr (.inl ⟨h, rfl, rfl⟩)
  | register _ _ hconfigured _ _ hcfg => exact .inr (.inr ⟨hcfg, hconfigured⟩)
  | _ => exact .inr (.inr ⟨rfl, rfl⟩)

/-- R25: who writes RESULT. -/
theorem EventUpdate.writer_of_result_ne (hne : y.result ≠ x.result) :
    (∃ a, ev = .access a ∧ decode a = .ok (containsOf e)) ∨
      (isConfigure e ev ∧ y.err = .ok ∧ y.result = false) ∨ (ev = .reset e ∧ y.result = false) := by
  cases h with
  | reset h => exact .inr (.inr ⟨h, rfl⟩)
  | latched c h => exact .inr (.inl ⟨h, rfl, rfl⟩)
  | contained r c h => exact .inl h
  | register _ _ _ hresult => exact absurd hresult hne
  | _ => exact absurd rfl hne

/-- R192: who writes ERR. -/
theorem EventUpdate.writer_of_err_ne (hne : y.err ≠ x.err) :
    ev = .reset e ∨ ∃ w, ev = .access (.write e 0x008 8 w) := by
  cases h with
  | reset h => exact .inl h
  | raised c h => exact .inr h
  | latched c _ hw => exact .inr ⟨_, hw⟩
  | inserted keys h => obtain ⟨w, hw, _⟩ := h; exact .inr ⟨w, hw⟩
  | contained r c _ hw => exact .inr ⟨_, hw⟩
  | register _ _ _ _ herr => exact absurd herr hne
  | keyBuffer => exact absurd rfl hne

/-- R50, R175: who writes the storage. -/
theorem EventUpdate.writer_of_storage_ne (hne : y.storage ≠ x.storage) :
    ev = .reset e ∨ ∃ w, ev = .access (.write e 0x008 8 w) ∧ (w = 0x1#64 ∨ w = 0x2#64 ∨ w = 0x4#64) := by
  cases h with
  | reset h => exact .inl h
  | latched c _ hw => exact .inr ⟨_, hw, .inl rfl⟩
  | inserted keys h => obtain ⟨w, hw, hword⟩ := h; exact .inr ⟨w, hw, .inr hword⟩
  | register _ _ _ _ _ _ _ hstorage => exact absurd hstorage hne
  | _ => exact absurd rfl hne

/-- R39: who writes the key buffer. -/
theorem EventUpdate.writer_of_keyBuf_ne (hne : y.keyBuf ≠ x.keyBuf) :
    ev = .reset e ∨
      ∃ offset width v, ev = .access (.write e offset width v) ∧ 0x1000 ≤ offset ∧ offset < 0x2000 := by
  cases h with
  | reset h => exact .inl h
  | keyBuffer i n v h => exact .inr h
  | register _ _ _ _ _ _ hkeyBuf => exact absurd hkeyBuf hne
  | _ => exact absurd rfl hne

/-- Every update keeps the canonical form of both memories. -/
theorem EventUpdate.memories_wf (hx : x.keyBuf.wf = true ∧ x.storage.wf = true) :
    y.keyBuf.wf = true ∧ y.storage.wf = true := by
  obtain ⟨hkey, hst⟩ := hx
  cases h with
  | reset => exact ⟨Memory.wf_nil, Memory.wf_nil⟩
  | register _ _ _ _ _ _ hkeyBuf hstorage => rw [hkeyBuf, hstorage]; exact ⟨hkey, hst⟩
  | keyBuffer i n v => exact ⟨(x.writeKey_spec hkey i n v).1, hst⟩
  | latched => exact ⟨hkey, Memory.wf_nil⟩
  | inserted keys => exact ⟨hkey, (foldl_insertKeyOf_spec e x hst keys).1⟩
  | raised | contained => exact ⟨hkey, hst⟩

end Updates

/-- Both memories are canonical in both engines when they are in each. -/
theorem State.memoriesWf_iff {s : State} :
    s.memoriesWf ↔ ∀ e, (s.engine e).keyBuf.wf = true ∧ (s.engine e).storage.wf = true := by
  refine ⟨fun h e => ?_, fun h => ⟨h .dh, h .bw⟩⟩
  cases e
  · exact h.1
  · exact h.2

/-! ### An engine whose bits only rise -/

/-- From `x` to `y` the filter stays: the parameters and the configuration are the same and no storage bit has fallen. -/
structure Engine.Grows (x y : Engine) : Prop where
  params : y.params = x.params
  cfg    : y.cfg = x.cfg
  wf     : x.storage.wf = true → y.storage.wf = true
  bits   : x.storage.wf = true → ∀ p, dhBit x.storage p = true → dhBit y.storage p = true

theorem Engine.Grows.refl (x : Engine) : x.Grows x := ⟨rfl, rfl, id, fun _ _ => id⟩

theorem Engine.Grows.trans {x y z : Engine} (hxy : x.Grows y) (hyz : y.Grows z) : x.Grows z where
  params := hyz.params.trans hxy.params
  cfg := hyz.cfg.trans hxy.cfg
  wf h := hyz.wf (hxy.wf h)
  bits h p hp := hyz.bits (hxy.wf h) p (hxy.bits h p hp)

theorem Engine.Grows.of_storage_eq {x y : Engine} (hparams : y.params = x.params) (hcfg : y.cfg = x.cfg)
    (hstorage : y.storage = x.storage) : x.Grows y := by
  refine ⟨hparams, hcfg, ?_, ?_⟩ <;> rw [hstorage]
  · exact id
  · exact fun _ _ => id

theorem Engine.grows_inserted (e : EngineKind) (x : Engine) (keys : List (List Byte)) :
    x.Grows (x.inserted (keys.foldl (insertKeyOf e x) x.storage)) where
  params := rfl
  cfg := rfl
  wf h := (foldl_insertKeyOf_spec e x h keys).1
  bits h := (foldl_insertKeyOf_spec e x h keys).2

/-- R41: only reset and a successful CONFIGURE end the filter; every other update lets it stay. -/
theorem EventUpdate.grows {e : EngineKind} {ev : HostEvent} {x y : Engine} (h : EventUpdate e ev x y)
    (hreset : ev ≠ .reset e) (hconfigure : isConfigure e ev → y.err ≠ .ok) : x.Grows y := by
  cases h with
  | reset h => exact absurd h hreset
  | latched c h => exact absurd rfl (hconfigure h)
  | inserted keys => exact x.grows_inserted e keys
  | register _ hparams _ _ _ hcfg _ hstorage => exact .of_storage_eq hparams hcfg hstorage
  | _ => exact .of_storage_eq rfl rfl rfl

theorem step_grows {e : EngineKind} {s t : State} (h : step s = .next t)
    (hev : ∀ ev, s.port.head? = some ev → ev ≠ .reset e ∧ (isConfigure e ev → (t.engine e).err ≠ .ok)) :
    (s.engine e).Grows (t.engine e) := by
  obtain heq | ⟨ev, rest, hport, hcase⟩ := step_engine_cases h e
  · rw [heq]; exact .refl _
  · obtain ⟨hreset, hconfigure⟩ := hev ev (by rw [hport]; rfl)
    exact hcase.update.grows hreset hconfigure

end Sys2Proof.Machine

namespace Sys2Proof.Proofs

/-- Settles O43: bit `b` of byte `a` is storage bit `8 * a + b`, and no update but the two excluded ones clears a storage bit. -/
theorem storageBitsOnlyRise : Obligations.StorageBitsOnlyRise := by
  intro e s t a b hwf hstep hev hbit
  have hb : b < 8 := BitVec.lt_of_getLsbD hbit
  have hbits := (step_grows hstep hev).bits hwf (8 * a + b)
  rw [dhBit, dhBit, show (8 * a + b) / 8 = a by omega, show (8 * a + b) % 8 = b by omega] at hbits
  exact hbits hbit

/-- Settles O44, by `EventUpdate.configuration`. -/
theorem cfgChangesOnlyAtConfigure : Obligations.CfgChangesOnlyAtConfigure := by
  intro e s t hstep hne
  obtain ⟨ev, rest, hport, hupdate⟩ := step_update_of_ne hstep (ne_of_apply_ne Engine.cfg hne)
  refine ⟨ev, rest, hport, ?_⟩
  rcases hupdate.configuration with ⟨hreset, _⟩ | hconfigure | ⟨hcfg, _⟩
  · exact .inl hreset
  · exact .inr hconfigure
  · exact absurd hcfg hne

/-- Settles O45, by `EventUpdate.configuration`: reset leaves CONFIGURED = 0, a successful CONFIGURE leaves 1. -/
theorem configuredChangesOnlyByConfigureAndReset : Obligations.ConfiguredChangesOnlyByConfigureAndReset := by
  intro e s t hstep
  have hcases (hne : (t.engine e).configured ≠ (s.engine e).configured) :
      ∃ ev rest, s.port = ev :: rest ∧ ((ev = .reset e ∧ (t.engine e).configured = false) ∨
        (isConfigure e ev ∧ (t.engine e).err = .ok ∧ (t.engine e).configured = true)) := by
    obtain ⟨ev, rest, hport, hupdate⟩ := step_update_of_ne hstep (ne_of_apply_ne Engine.configured hne)
    rcases hupdate.configuration with hreset | hconfigure | ⟨_, heq⟩
    · exact ⟨ev, rest, hport, .inl hreset⟩
    · exact ⟨ev, rest, hport, .inr hconfigure⟩
    · exact absurd heq hne
  constructor <;> intro hs ht
  · obtain ⟨ev, rest, hport, ⟨rfl, _⟩ | ⟨_, _, htrue⟩⟩ := hcases (by simp [hs, ht])
    · exact ⟨rest, hport⟩
    · simp [ht] at htrue
  · obtain ⟨ev, rest, hport, ⟨_, hfalse⟩ | ⟨hconfigure, hok, _⟩⟩ := hcases (by simp [hs, ht])
    · simp [ht] at hfalse
    · exact ⟨ev, rest, hport, hconfigure, hok⟩

/-- Settles O46, by the writers of RESULT. -/
theorem resultWrittenOnlyByContains : Obligations.ResultWrittenOnlyByContains := by
  intro e s t hstep hne
  obtain ⟨ev, rest, hport, hupdate⟩ := step_update_of_ne hstep (ne_of_apply_ne Engine.result hne)
  exact ⟨ev, rest, hport, hupdate.writer_of_result_ne hne⟩

/-- Settles O47, by the writers of ERR. -/
theorem errChangesOnlyByCommands : Obligations.ErrChangesOnlyByCommands := by
  intro e s t hstep hne
  obtain ⟨ev, rest, hport, hupdate⟩ := step_update_of_ne hstep (ne_of_apply_ne Engine.err hne)
  exact ⟨ev, rest, hport, hupdate.writer_of_err_ne hne⟩

/-- Settles O48, by the writers of the storage. -/
theorem storageChangesOnlyByCommands : Obligations.StorageChangesOnlyByCommands := by
  intro e s t hstep hne
  obtain ⟨ev, rest, hport, hupdate⟩ := step_update_of_ne hstep (ne_of_apply_ne Engine.storage hne)
  exact ⟨ev, rest, hport, hupdate.writer_of_storage_ne hne⟩

/-- Settles O49, by the writers of the key buffer. -/
theorem keyBufChangesOnlyByHostWrites : Obligations.KeyBufChangesOnlyByHostWrites := by
  intro e s t hstep hne
  obtain ⟨ev, rest, hport, hupdate⟩ := step_update_of_ne hstep (ne_of_apply_ne Engine.keyBuf hne)
  exact ⟨ev, rest, hport, hupdate.writer_of_keyBuf_ne hne⟩

/-- Settles O53: no update changes the parameters. -/
theorem parametersNeverChange : Obligations.ParametersNeverChange := by
  intro e s t hstep
  exact step_keeps (P := fun _ y => y.params = (s.engine e).params) (fun hupdate hx => hupdate.params_eq.trans hx)
    hstep rfl

/-- Settles O54: every update keeps the canonical form of both memories. -/
theorem stepKeepsMemoriesCanonical : Obligations.StepKeepsMemoriesCanonical := by
  intro s t hs hstep
  rw [State.memoriesWf_iff] at hs ⊢
  exact fun e => step_keeps (P := fun _ x => x.keyBuf.wf = true ∧ x.storage.wf = true) EventUpdate.memories_wf hstep (hs e)

end Sys2Proof.Proofs
end

section
/-! The laws of the key commands, for both kinds at once (41_double_hash.md R113–R116; 42_blocked_word.md R146–R150;
10_state.md R42): no false negatives, an idempotent INSERT, an empty fresh filter, and that the argument registers do not
matter. -/

open Sys2Proof Sys2Proof.Machine Sys2Proof.Claims

namespace Sys2Proof.Machine

/-! ### The storage bits of a key, by kind -/

/-- R110, R141, R144: storage bit `p` is one that the key selects, a probe position (DH) or a position in the key's word (BW). -/
def Engine.selects (e : EngineKind) (x : Engine) (key : List Byte) (p : Nat) : Prop :=
  match e with
  | .dh => p ∈ x.dhKeyProbes key
  | .bw => p / 64 = x.bwKeyWord key ∧ (x.bwKeyMask key).getLsbD (p % 64) = true

/-- Which storage bits a key selects depends on the parameters and the configuration alone (R42). -/
theorem Engine.selects_congr {e : EngineKind} {x y : Engine} (hparams : y.params = x.params) (hcfg : y.cfg = x.cfg)
    {key : List Byte} {p : Nat} : y.selects e key p ↔ x.selects e key p := by
  cases e <;> simp only [Engine.selects, Engine.dhKeyProbes, Engine.bwKeyWord, Engine.bwKeyMask, Engine.bwDigest, hparams,
    hcfg]

/-- R112, R144: with `K` > 0 every key selects some bit. -/
theorem Engine.exists_selects (e : EngineKind) {x : Engine} (hk : 0 < x.cfg.k.toNat) (key : List Byte) :
    ∃ p, x.selects e key p := by
  cases e
  · exact ⟨_, mem_dhProbes.2 ⟨0, hk, rfl⟩⟩
  · have hlt := bwPosition_lt x.params.mix (x.bwDigest key) 0
    refine ⟨64 * x.bwKeyWord key + bwPosition x.params.mix (x.bwDigest key) 0, by omega, ?_⟩
    rw [Nat.mul_add_mod, Nat.mod_eq_of_lt hlt, Engine.bwKeyMask, getLsbD_bwMask, decide_eq_true_eq]
    exact ⟨0, hk, rfl⟩

/-- R113, R146: the insertion of some keys sets the bits they select and no other. -/
theorem dhBit_foldl_insertKeyOf_iff (e : EngineKind) (x : Engine) {m : Memory} (h : m.wf = true) (keys : List (List Byte))
    (p : Nat) :
    dhBit (keys.foldl (insertKeyOf e x) m) p = true ↔ dhBit m p = true ∨ ∃ key ∈ keys, x.selects e key p := by
  cases e
  · rw [insertKeyOf, (foldl_dhInsertKey_spec x h keys).2, Bool.or_eq_true, decide_eq_true_eq]; rfl
  · rw [insertKeyOf, (foldl_bwInsertKey_spec x h keys).2, Bool.or_eq_true, decide_eq_true_eq]; rfl

/-- Whether the storage holds a key, by kind (R114, R147). -/
def hasKeyOf : EngineKind → Engine → List Byte → Bool
  | .dh => Engine.dhHasKey
  | .bw => Engine.bwHasKey

/-- R114, R147: the storage holds a key when every bit the key selects is set. -/
theorem hasKeyOf_iff {e : EngineKind} {x : Engine} {key : List Byte} :
    hasKeyOf e x key = true ↔ ∀ p, x.selects e key p → dhBit x.storage p = true := by
  cases e
  · exact List.all_eq_true
  · rw [hasKeyOf, bwHasKey_iff]
    constructor
    · rintro h p ⟨hword, hmask⟩
      have hbit := h (p % 64) (Nat.mod_lt _ (by omega)) hmask
      rwa [← hword, Nat.div_add_mod] at hbit
    · intro h b hb hmask
      refine h _ ⟨by omega, ?_⟩
      rwa [Nat.mul_add_mod, Nat.mod_eq_of_lt hb]

/-! ### The commands after their checks, by kind -/

theorem Engine.insertBy_ok (e : EngineKind) {x : Engine} (h : x.keyCommandError = none) :
    x.insertBy e = x.inserted (insertKeyOf e x x.storage x.key) := by
  cases e
  · exact Engine.dhInsert_ok h
  · exact Engine.bwInsert_ok h

theorem Engine.containsBy_ok (e : EngineKind) {x : Engine} (h : x.keyCommandError = none) :
    x.containsBy e = (x.setResult (hasKeyOf e x x.key)).raise .ok := by
  cases e
  · exact Engine.dhContains_ok h
  · exact Engine.bwContains_ok h

theorem Engine.bulkInsertBy_ok (e : EngineKind) {x : Engine} {keys : List (List Byte)} (h : x.keyCommandError = none)
    (hr : x.records = some keys) : x.bulkInsertBy e = x.inserted (keys.foldl (insertKeyOf e x) x.storage) := by
  cases e
  · exact Engine.dhBulkInsert_ok h hr
  · exact Engine.bwBulkInsert_ok h hr

/-- R198: a key command that ends with OK passed the checks, for their errors are never OK. -/
theorem Engine.keyCommandError_eq_none_of_err_ok {x y : Engine} (herror : ∀ c, x.keyCommandError = some c → y.err = c)
    (h : y.err = .ok) : x.keyCommandError = none := by
  cases hchecks : x.keyCommandError with
  | none => rfl
  | some c => exact absurd ((herror c hchecks).symm.trans h) (Engine.keyCommandError_ne_ok hchecks)

theorem Engine.keyCommandError_of_insertBy_ok {e : EngineKind} {x : Engine} (h : (x.insertBy e).err = .ok) :
    x.keyCommandError = none :=
  Engine.keyCommandError_eq_none_of_err_ok (fun _ hc => congrArg Engine.err (Engine.insertBy_error e hc)) h

theorem Engine.keyCommandError_of_containsBy_ok {e : EngineKind} {x : Engine} (h : (x.containsBy e).err = .ok) :
    x.keyCommandError = none :=
  Engine.keyCommandError_eq_none_of_err_ok (fun _ hc => congrArg Engine.err (Engine.containsBy_error e hc)) h

/-- An instruction that an engine performs leaves in the engine what its effect leaves. -/
theorem engine_of_exec_perform {i : Instr} {s t : State} {e : EngineKind} {f : Engine → Engine}
    (hexec : exec i s = .next (s.perform e f)) (h : exec i s = .next t) : t.engine e = f (s.engine e) := by
  rw [hexec] at h
  cases h
  exact s.perform_engine e f

/-! ### No false negatives -/

/-- R113, R146: after a successful INSERT the storage holds the key. -/
theorem Engine.hasKeyOf_insertBy {e : EngineKind} {x : Engine} (hwf : x.storage.wf = true)
    (hchecks : x.keyCommandError = none) : hasKeyOf e (x.insertBy e) x.key = true := by
  rw [Engine.insertBy_ok e hchecks, hasKeyOf_iff]
  intro p hp
  exact (dhBit_foldl_insertKeyOf_iff e x hwf [x.key] p).2 (.inr ⟨x.key, List.mem_singleton.2 rfl, hp⟩)

/-- R116, R150: while the filter stays, a key that the storage holds is held. -/
theorem Engine.Grows.hasKeyOf {e : EngineKind} {x y : Engine} (h : x.Grows y) (hwf : x.storage.wf = true) {key : List Byte}
    (hkey : hasKeyOf e x key = true) : Machine.hasKeyOf e y key = true := by
  rw [hasKeyOf_iff] at hkey ⊢
  intro p hp
  exact h.bits hwf p (hkey p ((Engine.selects_congr h.params h.cfg).1 hp))

theorem step_port_subset {s t : State} (h : step s = .next t) : ∀ ev ∈ t.port, ev ∈ s.port := by
  obtain ⟨_, rfl⟩ | ⟨ev, rest, hport, _, rfl⟩ := step_cases h
  · exact fun _ => id
  · rw [afterEvent_port, hport]
    exact fun _ => List.mem_cons_of_mem ev

/-- A run of `n + 1` steps is a step and a run of `n` steps. -/
theorem exists_step_of_run_succ {n : Nat} {s t : core.State} (h : core.run (n + 1) s = .next t) :
    ∃ u, core.step s = .next u ∧ core.run n u = .next t := by
  rw [Host.Core.run] at h
  split at h
  · exact ⟨_, ‹_›, h⟩
  · cases h
  · cases h

/-- R116, R150: along a run without the engine's reset and CONFIGURE, its filter stays. -/
theorem run_grows {e : EngineKind} {n : Nat} {s t : State} (hport : ∀ ev ∈ s.port, ¬ mayEndInstance e ev)
    (h : core.run n s = .next t) : (s.engine e).Grows (t.engine e) := by
  induction n generalizing s with
  | zero => cases h; exact .refl _
  | succ n ih =>
    obtain ⟨u, hstep, hrest⟩ := exists_step_of_run_succ h
    have hfirst : (s.engine e).Grows (u.engine e) := by
      refine step_grows hstep fun ev hev => ?_
      have hstays := hport ev (List.mem_of_mem_head? hev)
      exact ⟨fun hreset => hstays (.inl hreset), fun hconfigure => absurd (.inr hconfigure) hstays⟩
    exact hfirst.trans (ih (fun ev hev => hport ev (step_port_subset hstep ev hev)) hrest)

/-! ### A second INSERT -/

/-- R113, R146: the bits of a key that are set already stay as they are. -/
theorem insertKeyOf_idem (e : EngineKind) (x : Engine) {m : Memory} (hwf : m.wf = true) (key : List Byte) :
    insertKeyOf e x (insertKeyOf e x m key) key = insertKeyOf e x m key := by
  have hfirst := (foldl_insertKeyOf_spec e x hwf [key]).1
  have hsecond := (foldl_insertKeyOf_spec e x hwf [key, key]).1
  refine memory_ext_dhBit hsecond hfirst fun p => ?_
  have h1 := dhBit_foldl_insertKeyOf_iff e x hwf [key] p
  have h2 := dhBit_foldl_insertKeyOf_iff e x hwf [key, key] p
  simp only [List.foldl_cons, List.foldl_nil, List.mem_cons, List.not_mem_nil, or_false, or_self] at h1 h2
  exact Bool.eq_iff_iff.2 (h2.trans h1.symm)

theorem Engine.insertBy_idem (e : EngineKind) {x : Engine} (hwf : x.storage.wf = true) :
    (x.insertBy e).insertBy e = x.insertBy e := by
  cases hchecks : x.keyCommandError with
  | some c => rw [Engine.insertBy_error e hchecks]; exact Engine.insertBy_error e (x := x.raise c) hchecks
  | none =>
    have hidem := insertKeyOf_idem e x hwf x.key
    rw [Engine.insertBy_ok e hchecks, Engine.insertBy_ok e (x := x.inserted _) hchecks]
    cases e <;> exact congrArg x.inserted hidem

/-! ### A fresh filter -/

theorem Engine.raise_ne_latch {x : Engine} {err : ErrCode} {c : Cfg} (h : err ≠ .ok) : x.raise err ≠ x.latch c :=
  ne_of_apply_ne Engine.err h

/-- R93: what a DH CONFIGURE that latches had as arguments, and what it latches. -/
theorem Engine.of_dhConfigure_eq_latch {x : Engine} {c : Cfg} (h : x.dhConfigure = x.latch c) :
    x.invalidArgs = false ∧ x.sizeBits.toInt ≤ x.params.maxDhBits ∧ x.numHashes.toInt ≤ x.params.maxK ∧
      x.dhCfg x.sizeBits.toInt.toNat x.numHashes.toInt.toNat = c := by
  obtain ⟨_, heq⟩ | ⟨_, heq⟩ | ⟨hvalid, hsize, hhashes, heq⟩ := x.dhConfigure_cases
  · exact absurd (heq.symm.trans h) (Engine.raise_ne_latch (by simp))
  · exact absurd (heq.symm.trans h) (Engine.raise_ne_latch (by simp))
  · exact ⟨hvalid, hsize, hhashes, congrArg Engine.cfg (heq.symm.trans h)⟩

/-- R97: what a BW CONFIGURE that latches had as arguments, and what it latches. -/
theorem Engine.of_bwConfigure_eq_latch {x : Engine} {c : Cfg} (h : x.bwConfigure = x.latch c) :
    x.invalidArgs = false ∧ (x.sizeBits.toInt + 63) / 64 ≤ x.params.maxBwWords ∧ x.numHashes.toInt ≤ x.params.maxK ∧
      x.bwCfg x.sizeBits.toInt.toNat x.numHashes.toInt.toNat = c := by
  obtain ⟨_, heq⟩ | ⟨_, heq⟩ | ⟨hvalid, hsize, hhashes, heq⟩ := x.bwConfigure_cases
  · exact absurd (heq.symm.trans h) (Engine.raise_ne_latch (by simp))
  · exact absurd (heq.symm.trans h) (Engine.raise_ne_latch (by simp))
  · exact ⟨hvalid, hsize, hhashes, congrArg Engine.cfg (heq.symm.trans h)⟩

/-- R42: a latched configuration has a positive capacity and number of hashes, the latter within its limit. -/
theorem Engine.positive_of_configureBy_eq_latch {e : EngineKind} {x : Engine} {c : Cfg} (h : x.configureBy e = x.latch c) :
    0 < c.m.toNat ∧ 0 < c.k.toNat ∧ c.k.toNat ≤ x.params.maxK := by
  have hsizeLt := toInt_lt_two_pow x.sizeBits
  have hhashesLt := toInt_lt_two_pow x.numHashes
  cases e
  · obtain ⟨hvalid, _, hmaxK, rfl⟩ := Engine.of_dhConfigure_eq_latch h
    obtain ⟨hsize, hhashes⟩ := Engine.invalidArgs_eq_false.1 hvalid
    obtain ⟨hm, hk, _⟩ := x.dhCfg_toNat (m := x.sizeBits.toInt.toNat) (k := x.numHashes.toInt.toNat) (by omega) (by omega)
    rw [hm, hk]
    omega
  · obtain ⟨hvalid, _, hmaxK, rfl⟩ := Engine.of_bwConfigure_eq_latch h
    obtain ⟨hsize, hhashes⟩ := Engine.invalidArgs_eq_false.1 hvalid
    obtain ⟨hwc, _, _, hm, _, hk⟩ :=
      x.bwCfg_toNat (n := x.sizeBits.toInt.toNat) (k := x.numHashes.toInt.toNat) (by omega) (by omega)
    have hwords := le_nextPow2 ((x.sizeBits.toInt.toNat + 63) / 64)
    rw [hm, hk, hwc]
    omega

/-- R114, R147: an all-zero storage holds no key. -/
theorem Engine.hasKeyOf_latch (e : EngineKind) (x : Engine) {c : Cfg} (hk : 0 < c.k.toNat) (key : List Byte) :
    hasKeyOf e (x.latch c) key = false := by
  obtain ⟨p, hp⟩ := Engine.exists_selects e (x := x.latch c) hk key
  refine Bool.eq_false_iff.2 fun htrue => ?_
  have hbit := hasKeyOf_iff.1 htrue p hp
  simp [dhBit] at hbit

/-! ### The argument registers -/

/-- The engine with other values in `SIZE_BITS`, `NUM_HASHES`, `SEED1` and `SEED2`. -/
def Engine.withArgs (a b c d : Word) (x : Engine) : Engine := { x with sizeBits := a, numHashes := b, seed1 := c, seed2 := d }

section WithArgs
variable (a b c d : Word) (x : Engine)

theorem Engine.parseFrom_withArgs (len count o : Nat) :
    (x.withArgs a b c d).parseFrom len count o = x.parseFrom len count o := by
  induction count generalizing o with
  | zero => rfl
  | succ count ih => rw [Engine.parseFrom_succ, Engine.parseFrom_succ, ih]; rfl

theorem Engine.records_withArgs : (x.withArgs a b c d).records = x.records := Engine.parseFrom_withArgs a b c d x _ _ _

theorem insertKeyOf_withArgs (e : EngineKind) : insertKeyOf e (x.withArgs a b c d) = insertKeyOf e x := by cases e <;> rfl

theorem hasKeyOf_withArgs (e : EngineKind) : hasKeyOf e (x.withArgs a b c d) = hasKeyOf e x := by cases e <;> rfl

/-- The checks do not read the argument registers. -/
theorem Engine.keyCommandError_withArgs {r : Option ErrCode} (h : x.keyCommandError = r) :
    (x.withArgs a b c d).keyCommandError = r := h

theorem Engine.insertBy_withArgs (e : EngineKind) :
    (x.withArgs a b c d).insertBy e = (x.insertBy e).withArgs a b c d := by
  cases hchecks : x.keyCommandError with
  | some code =>
    rw [Engine.insertBy_error e hchecks, Engine.insertBy_error e (x.keyCommandError_withArgs a b c d hchecks)]; rfl
  | none =>
    rw [Engine.insertBy_ok e hchecks, Engine.insertBy_ok e (x.keyCommandError_withArgs a b c d hchecks),
      insertKeyOf_withArgs]
    rfl

theorem Engine.containsBy_withArgs (e : EngineKind) :
    (x.withArgs a b c d).containsBy e = (x.containsBy e).withArgs a b c d := by
  cases hchecks : x.keyCommandError with
  | some code =>
    rw [Engine.containsBy_error e hchecks, Engine.containsBy_error e (x.keyCommandError_withArgs a b c d hchecks)]; rfl
  | none =>
    rw [Engine.containsBy_ok e hchecks, Engine.containsBy_ok e (x.keyCommandError_withArgs a b c d hchecks),
      hasKeyOf_withArgs]
    rfl

theorem Engine.bulkInsertBy_withArgs (e : EngineKind) :
    (x.withArgs a b c d).bulkInsertBy e = (x.bulkInsertBy e).withArgs a b c d := by
  cases hchecks : x.keyCommandError with
  | some code =>
    rw [Engine.bulkInsertBy_error e hchecks, Engine.bulkInsertBy_error e (x.keyCommandError_withArgs a b c d hchecks)]; rfl
  | none =>
    have hchecks' := x.keyCommandError_withArgs a b c d hchecks
    have hrec := x.records_withArgs a b c d
    cases hrecords : x.records with
    | none =>
      rw [hrecords] at hrec
      rw [Engine.bulkInsertBy_format e hchecks hrecords, Engine.bulkInsertBy_format e hchecks' hrec]; rfl
    | some keys =>
      rw [hrecords] at hrec
      rw [Engine.bulkInsertBy_ok e hchecks hrecords, Engine.bulkInsertBy_ok e hchecks' hrec, insertKeyOf_withArgs]; rfl

end WithArgs

/-- An instruction whose effect commutes with an update of the engine it performs in commutes with that update of the state. -/
theorem exec_setEngine_of_commutes {i : Instr} {e : EngineKind} {f g : Engine → Engine} {s t : State}
    (hexec : ∀ s, exec i s = .next (s.perform e f)) (hcomm : ∀ x, f (g x) = g (f x)) (h : exec i s = .next t) :
    exec i (s.setEngine e (g (s.engine e))) = .next (t.setEngine e (g (t.engine e))) := by
  rw [hexec] at h ⊢
  cases h
  cases e <;> simp [State.perform, State.respond, hcomm]

/-- The key commands commute with a change of the argument registers. -/
theorem exec_keyCommand_withArgs {e : EngineKind} {i : Instr} {s t : State} (a b c d : Word)
    (hi : i = insertOf e ∨ i = containsOf e ∨ i = bulkInsertOf e) (h : exec i s = .next t) :
    exec i (s.setEngine e ((s.engine e).withArgs a b c d)) = .next (t.setEngine e ((t.engine e).withArgs a b c d)) := by
  rcases hi with rfl | rfl | rfl
  · exact exec_setEngine_of_commutes (exec_insertOf e) (fun x => x.insertBy_withArgs a b c d e) h
  · exact exec_setEngine_of_commutes (exec_containsOf e) (fun x => x.containsBy_withArgs a b c d e) h
  · exact exec_setEngine_of_commutes (exec_bulkInsertOf e) (fun x => x.bulkInsertBy_withArgs a b c d e) h

end Sys2Proof.Machine

namespace Sys2Proof.Proofs

/-- Settles O41: the INSERT leaves the key held, the run lets the filter stay, and CONTAINS answers whether the key is held. -/
theorem noFalseNegatives : Obligations.NoFalseNegatives := by
  intro e s t u v n hwf hinsert htok hport hrun hkey hcontains hvok
  have ht := engine_of_exec_perform (exec_insertOf e s) hinsert
  have hv := engine_of_exec_perform (exec_containsOf e u) hcontains
  rw [ht] at htok
  rw [hv] at hvok
  have hinserted := Engine.keyCommandError_of_insertBy_ok htok
  have hwfAfter : (t.engine e).storage.wf = true := by
    rw [ht, Engine.insertBy_ok e hinserted]
    exact ((s.engine e).grows_inserted e [(s.engine e).key]).wf hwf
  have hheld : hasKeyOf e (t.engine e) (s.engine e).key = true := by
    rw [ht]; exact Engine.hasKeyOf_insertBy hwf hinserted
  rw [hv, Engine.containsBy_ok e (Engine.keyCommandError_of_containsBy_ok hvok), hkey]
  exact (run_grows hport hrun).hasKeyOf hwfAfter hheld

/-- Settles O42, by `Engine.insertBy_idem`. -/
theorem insertIsIdempotent : Obligations.InsertIsIdempotent := by
  intro e s t u hwf hfirst hsecond
  rw [engine_of_exec_perform (exec_insertOf e t) hsecond, engine_of_exec_perform (exec_insertOf e s) hfirst]
  exact Engine.insertBy_idem e hwf

/-- Settles O26: a successful CONFIGURE leaves an all-zero storage and `K` > 0, so the key selects a bit that is 0. -/
theorem freshInstanceContainsNothing : Obligations.FreshInstanceContainsNothing := by
  intro s t e hconfigure hok hfits
  have ht := engine_of_exec_perform (exec_configureOf e s) hconfigure
  obtain ⟨c, hc, hraise⟩ | ⟨c, hlatch⟩ := (s.engine e).configureBy_cases e
  · rw [ht, hraise] at hok
    exact absurd hok hc
  · obtain ⟨_, hk, _⟩ := Engine.positive_of_configureBy_eq_latch hlatch
    rw [hlatch] at ht
    have hchecks : (t.engine e).keyCommandError = none :=
      Engine.keyCommandError_eq_none (by rw [ht]; rfl) hfits
    refine exists_next_changesOnly (exec_containsOf e t) ?_
    rw [Engine.containsBy_ok e hchecks, ht, Engine.hasKeyOf_latch e _ hk]
    rfl

/-- Settles O52: no key command reads or writes the argument registers. -/
theorem argumentRegistersDoNotMatterToKeyCommands : Obligations.ArgumentRegistersDoNotMatterToKeyCommands := by
  intro e i s t a b c d hi h
  exact exec_keyCommand_withArgs a b c d hi h

end Sys2Proof.Proofs
end

section
/-! The legal states as an invariant (10_state.md R30, R33, R39, R40, R42; 00_scope.md R7): reset is legal, and every update
of an engine keeps it legal. -/

open Sys2Proof Sys2Proof.Machine Sys2Proof.Claims

namespace Sys2Proof.Machine

/-- R45: an engine after reset is legal when its parameters are. -/
theorem EngineInv.atReset {e : EngineKind} {p : Params} (h : p.wf e) : EngineInv e (Engine.atReset p) where
  params := h
  keyBufWf := Memory.wf_nil
  storageWf := Memory.wf_nil
  keyBufRange _ _ := Memory.read_nil _
  storageRange _ _ := Memory.read_nil _
  unconfigured _ := ⟨rfl, rfl⟩
  positive h := absurd h (by simp)
  geometry h := absurd h (by simp)
  padding _ p _ := by simp [dhBit]
  seed2 _ := rfl

/-- R95, R97, R93: a latched configuration has the geometry of its kind. -/
theorem Engine.geometryOk_of_configureBy_eq_latch {e : EngineKind} {x : Engine} {c : Cfg} (hparams : x.params.wf e)
    (h : x.configureBy e = x.latch c) : geometryOk e x.params c := by
  have hsizeLt := toInt_lt_two_pow x.sizeBits
  have hhashesLt := toInt_lt_two_pow x.numHashes
  cases e
  · obtain ⟨hvalid, hmax, _, rfl⟩ := Engine.of_dhConfigure_eq_latch h
    obtain ⟨hsize, hhashes⟩ := Engine.invalidArgs_eq_false.1 hvalid
    obtain ⟨hm, _, hrb⟩ := x.dhCfg_toNat (m := x.sizeBits.toInt.toNat) (k := x.numHashes.toInt.toNat) (by omega) (by omega)
    exact ⟨by omega, rfl, rfl, by omega⟩
  · obtain ⟨hvalid, hmax, _, rfl⟩ := Engine.of_bwConfigure_eq_latch h
    obtain ⟨hsize, hhashes⟩ := Engine.invalidArgs_eq_false.1 hvalid
    obtain ⟨hwc, hbb, hbb57, hm, hrb, _⟩ :=
      x.bwCfg_toNat (n := x.sizeBits.toInt.toNat) (k := x.numHashes.toInt.toNat) (by omega) (by omega)
    obtain ⟨_, _, ⟨j, _, hmaxWords⟩, _⟩ := hparams
    have hwcMax : nextPow2 ((x.sizeBits.toInt.toNat + 63) / 64) ≤ 2 ^ j := nextPow2_le (by omega)
    refine ⟨by omega, hbb57, ?_, hm, hrb, rfl⟩
    rw [hwc, hbb, nextPow2]

section Legal
variable {e : EngineKind} {x : Engine} (hx : EngineInv e x)
include hx

/-- The invariant does not speak of the other registers and of ERR. -/
theorem EngineInv.congr {y : Engine} (hparams : y.params = x.params) (hconfigured : y.configured = x.configured)
    (hresult : y.configured = false → y.result = false) (hcfg : y.cfg = x.cfg) (hkeyBuf : y.keyBuf = x.keyBuf)
    (hstorage : y.storage = x.storage) (hseed2 : e = .bw → y.seed2 = x.seed2) : EngineInv e y where
  params := hparams ▸ hx.params
  keyBufWf := hkeyBuf ▸ hx.keyBufWf
  storageWf := hstorage ▸ hx.storageWf
  keyBufRange := by rw [hparams, hkeyBuf]; exact hx.keyBufRange
  storageRange := by rw [hcfg, hstorage]; exact hx.storageRange
  unconfigured h := ⟨hcfg.trans (hx.unconfigured (hconfigured ▸ h)).1, hresult h⟩
  positive := by rw [hparams, hconfigured, hcfg]; exact hx.positive
  geometry := by rw [hparams, hconfigured, hcfg]; exact hx.geometry
  padding := by rw [hcfg, hstorage]; exact hx.padding
  seed2 h := (hseed2 h).trans (hx.seed2 h)

/-- R39, R56: a host write keeps the key buffer's bytes below KEYBUF_BYTES. -/
theorem EngineInv.writeKey (i n : Nat) (v : Word) : EngineInv e (x.writeKey i n v) := by
  obtain ⟨hwf, hread⟩ := x.writeKey_spec hx.keyBufWf i n v
  refine { hx with keyBufWf := hwf, keyBufRange := fun b hb => ?_ }
  have hout : x.params.keybufBytes ≤ b := hb
  rw [hread, if_neg (by omega)]
  exact hx.keyBufRange b hout

/-- R42, R93, R97: a successful CONFIGURE leaves a legal configuration over an all-zero storage. -/
theorem EngineInv.latch {c : Cfg} (h : x.configureBy e = x.latch c) : EngineInv e (x.latch c) := by
  have hpositive := Engine.positive_of_configureBy_eq_latch h
  have hgeometry := Engine.geometryOk_of_configureBy_eq_latch hx.params h
  exact { hx with
    storageWf := Memory.wf_nil
    storageRange := fun _ _ => Memory.read_nil _
    unconfigured := fun h => absurd h (by simp)
    positive := fun _ => hpositive
    geometry := fun _ => hgeometry
    padding := fun _ p _ => by simp [dhBit] }

/-- R33: the raw bytes hold the capacity. -/
theorem EngineInv.capacity_le (hconfigured : x.configured = true) : x.cfg.m.toNat ≤ 8 * x.cfg.rb.toNat := by
  have hgeometry := hx.geometry hconfigured
  cases e
  · obtain ⟨_, _, _, hrb⟩ := hgeometry; omega
  · obtain ⟨_, _, _, hm, hrb, _⟩ := hgeometry; omega

/-- R112, R141: the bits a key selects lie below the capacity. -/
theorem EngineInv.selects_lt (hconfigured : x.configured = true) {key : List Byte} {p : Nat} (hp : x.selects e key p) :
    p < x.cfg.m.toNat := by
  obtain ⟨hm, _, _⟩ := hx.positive hconfigured
  have hgeometry := hx.geometry hconfigured
  cases e
  · obtain ⟨i, _, rfl⟩ := mem_dhProbes.1 hp
    exact dhProbe_lt _ _ _ hm i
  · obtain ⟨_, hbb, hwc, hcapacity, _, _⟩ := hgeometry
    obtain ⟨hword, _⟩ := hp
    have hlt : x.bwKeyWord key < 2 ^ x.cfg.bb.toNat := bwIndex_lt _ hbb
    omega

/-- R40, R113, R146: the bits that insertions set are set before or lie below the capacity. -/
theorem EngineInv.dhBit_inserted (hconfigured : x.configured = true) {keys : List (List Byte)} {p : Nat}
    (hp : x.cfg.m.toNat ≤ p) :
    dhBit (keys.foldl (insertKeyOf e x) x.storage) p = dhBit x.storage p := by
  rw [Bool.eq_iff_iff, dhBit_foldl_insertKeyOf_iff e x hx.storageWf]
  refine or_iff_left ?_
  rintro ⟨key, _, hselects⟩
  have := hx.selects_lt hconfigured hselects
  omega

theorem EngineInv.inserted (hconfigured : x.configured = true) (keys : List (List Byte)) :
    EngineInv e (x.inserted (keys.foldl (insertKeyOf e x) x.storage)) :=
  { hx with
    storageWf := (foldl_insertKeyOf_spec e x hx.storageWf keys).1
    storageRange := fun a ha => by
      have hout : x.cfg.rb.toNat ≤ a := ha
      have hcapacity := hx.capacity_le hconfigured
      rw [← hx.storageRange a hout]
      exact read_eq_of_dhBit fun b _ => hx.dhBit_inserted hconfigured (by omega)
    padding := fun he p hp => (hx.dhBit_inserted hconfigured hp).trans (hx.padding he p hp) }

/-- Every update of an engine keeps it legal. -/
theorem EventUpdate.keeps_inv {ev : HostEvent} {y : Engine} (h : EventUpdate e ev x y) : EngineInv e y := by
  cases h with
  | reset => exact .atReset hx.params
  | register _ hparams hconfigured hresult _ hcfg hkeyBuf hstorage hseed2 =>
    exact hx.congr hparams hconfigured (fun h => hresult.trans (hx.unconfigured (hconfigured ▸ h)).2) hcfg hkeyBuf hstorage
      hseed2
  | keyBuffer i n v => exact hx.writeKey i n v
  | raised => exact hx.congr rfl rfl (fun h => (hx.unconfigured h).2) rfl rfl rfl fun _ => rfl
  | latched c _ _ hlatch => exact hx.latch hlatch
  | inserted keys _ hchecks => exact hx.inserted (Engine.of_keyCommandError_eq_none hchecks).1 keys
  | contained r c _ _ hr => exact hx.congr rfl rfl hr rfl rfl rfl fun _ => rfl

end Legal

theorem State.inv_iff {s : State} : s.Inv ↔ ∀ e, EngineInv e (s.engine e) := by
  refine ⟨fun h e => ?_, fun h => ⟨h .dh, h .bw⟩⟩
  cases e
  · exact h.1
  · exact h.2

end Sys2Proof.Machine

namespace Sys2Proof.Proofs

/-- Settles O55: a step updates an engine or leaves it alone, and every update keeps it legal. -/
theorem stepKeepsInvariant : Obligations.StepKeepsInvariant := by
  intro s t hs hstep
  rw [State.inv_iff] at hs ⊢
  exact fun e => step_keeps (P := EngineInv) (fun hupdate hx => hupdate.keeps_inv hx) hstep (hs e)

/-- Settles O56: the reset parameters lie in R7's ranges, and an engine after reset is legal for any such parameters. -/
theorem resetStateIsLegal : Obligations.ResetStateIsLegal := by
  rw [Obligations.ResetStateIsLegal, State.inv_iff]
  intro e
  rw [State.reset_engine]
  exact .atReset (Config.params_wf e)

end Sys2Proof.Proofs
end

section
/-! The port and the register page (20_memory.md R53–R60; 10_state.md R21–R38; 43_accessors.md R170–R176): what a step does
with each kind of event, and the accesses of each region of the window as steps. -/

open Sys2Proof Sys2Proof.Machine Sys2Proof.Claims

namespace Sys2Proof.Machine

/-! ### A step with an event at the head of the port -/

/-- R53: an access at an offset of the window reaches a present engine. -/
theorem reaches_access {s : State} {a : BusAccess} (he : hasEngine s.instances a.engine = true)
    (hw : (s.engine a.engine).inWindow a.offset = true) : reaches (.access a) s = true := by
  rw [reaches, he, hw, Bool.and_self]

/-- An access that decodes to an instruction runs it in the state with the access taken from the port. -/
theorem step_of_decode_ok {s : State} {a : BusAccess} {rest : List HostEvent} {i : Instr}
    (hport : s.port = .access a :: rest) (he : hasEngine s.instances a.engine = true)
    (hw : (s.engine a.engine).inWindow a.offset = true) (hd : decode a = .ok i) :
    step s = exec i { s with port := rest } := by
  simp only [step, fetch, hport, fetchEvent, State.engine_withPort, he, hw, hd, if_true]

theorem step_absentEngine {s : State} {ev : HostEvent} {rest : List HostEvent} (hport : s.port = ev :: rest)
    (he : hasEngine s.instances (eventTarget ev) = false) : step s = .fault .absentEngine := by
  cases ev with
  | access a =>
    replace he : hasEngine s.instances a.engine = false := he
    simp [step, fetch, hport, fetchEvent, he]
  | reset e =>
    replace he : hasEngine s.instances e = false := he
    simp [step, fetch, hport, fetchEvent, he]

theorem step_outsideWindow {s : State} {a : BusAccess} {rest : List HostEvent} (hport : s.port = .access a :: rest)
    (he : hasEngine s.instances a.engine = true) (hw : (s.engine a.engine).inWindow a.offset = false) :
    step s = .fault .outsideWindow := by
  simp [step, fetch, hport, fetchEvent, he, hw]

/-- R53: the raw window ends RAW_WINDOW_BYTES after offset 0x10000. -/
theorem Engine.inWindow_eq_false {x : Engine} {o : Nat} (h : 0x10000 + x.params.rawWindowBytes ≤ o) :
    x.inWindow o = false := by
  rw [Engine.inWindow, Bool.or_eq_false_iff, decide_eq_false_iff_not, decide_eq_false_iff_not]
  omega

/-- R217: every access gets exactly one answer. -/
theorem exists_eventAnswers_access (a : BusAccess) (x : Engine) : ∃ r, eventAnswers (.access a) x = [r] := by
  cases hd : decode a with
  | ok i => exact ⟨_, by rw [eventAnswers, hd]⟩
  | error o => exact ⟨_, by rw [eventAnswers, hd]⟩

section Accesses
variable {s : State} {a : BusAccess} {rest : List HostEvent} {r : Response} (hport : s.port = .access a :: rest)
  (hreaches : reaches (.access a) s = true) (hanswers : eventAnswers (.access a) (s.engine a.engine) = [r])
include hport hreaches hanswers

/-- An access that reaches its engine and has the effect `y` on it and the answer `r`. -/
theorem exists_step_changesOnly {y : Engine} (heffect : eventEffect (.access a) (s.engine a.engine) = y) :
    ∃ t, step s = .next t ∧ changesOnly { s with port := rest } t a.engine y r := by
  subst heffect
  exact ⟨_, (step_event hport).1 hreaches, changesOnly_afterEvent hanswers⟩

/-- An access that reaches its engine, leaves it as it is and has the answer `r`. -/
theorem exists_step_answersOnly (heffect : eventEffect (.access a) (s.engine a.engine) = s.engine a.engine) :
    ∃ t, step s = .next t ∧ answersOnly { s with port := rest } t r := by
  obtain ⟨t, hstep, hengine, hothers, hframe⟩ := exists_step_changesOnly hport hreaches hanswers heffect
  refine ⟨t, hstep, fun f => ?_, hframe⟩
  by_cases hf : f = a.engine
  · rw [hf, hengine]
    exact (State.engine_withPort s rest a.engine).symm
  · exact hothers f hf

end Accesses

/-- An access that decodes to no instruction and has no effect answers what `otherAnswer` says. -/
theorem exists_step_answersOnly_of_decode_error {s : State} {a : BusAccess} {rest : List HostEvent} {o : OtherAccess}
    {r : Response} (hport : s.port = .access a :: rest) (hreaches : reaches (.access a) s = true)
    (hd : decode a = .error o) (hanswer : otherAnswer o (s.engine a.engine) = r)
    (heffect : otherEffect o (s.engine a.engine) = s.engine a.engine) :
    ∃ t, step s = .next t ∧ answersOnly { s with port := rest } t r := by
  refine exists_step_answersOnly hport hreaches ?_ ?_
  · simp only [eventAnswers, hd, hanswer]
  · simp only [eventEffect, hd, heffect]

/-! ### The register map -/

/-- R23, R26: `STATUS` reads as the number of its fields. -/
theorem Engine.status_eq (x : Engine) : x.status = BitVec.ofNat 64 (statusNumber x) := by
  have hfields : ∀ (err : ErrCode) (result configured : Bool),
      0#56 ++ err.code ++ 0#2 ++ BitVec.ofBool result ++ BitVec.ofBool configured =
        BitVec.ofNat 64 ((if configured then 1 else 0) + (if result then 2 else 0) + 16 * errNumber err) := by
    intro err
    cases err <;> decide
  exact hfields x.err x.result x.configured

/-- R21–R37, R55: a read of a register returns what the register map gives at its offset. -/
theorem Engine.readReg_eq_registerPageValue (e : EngineKind) (x : Engine) (r : Reg) :
    x.readReg e r = registerPageValue e x r.offset := by
  cases r
  case id | seed2 => cases e <;> rfl
  case status => exact x.status_eq
  case blockBits =>
    cases e
    · rfl
    · exact (BitVec.ofNat_toNat 64 x.cfg.bb).symm
  all_goals rfl

/-- R38: the reserved offsets are those of no register. -/
theorem regAt_eq_none_iff {o : Nat} :
    regAt o = none ↔ o ≠ 0x000 ∧ o ≠ 0x008 ∧ o ≠ 0x010 ∧ o ≠ 0x018 ∧ o ≠ 0x020 ∧ o ≠ 0x028 ∧ o ≠ 0x030 ∧ o ≠ 0x038 ∧
      o ≠ 0x040 ∧ o ≠ 0x048 ∧ o ≠ 0x050 ∧ o ≠ 0x058 ∧ o ≠ 0x060 := by
  simp [regAt, Reg.all, Reg.offset, eq_comm (b := o)]

/-- R38: a reserved offset reads 0. -/
theorem registerPageValue_reserved (e : EngineKind) (x : Engine) {o : Nat} (h : regAt o = none) :
    registerPageValue e x o = 0 := by
  simp [registerPageValue, regAt_eq_none_iff.1 h]

/-- R38: a write at a reserved offset is ignored. -/
theorem registerPageStore_reserved (e : EngineKind) (x : Engine) {o : Nat} (h : regAt o = none) (v : Word) :
    registerPageStore e x o v = x := by
  simp [registerPageStore, regAt_eq_none_iff.1 h]

section RegisterPage
variable {e : EngineKind} {o : Nat} (x : Engine) (h : o < 0x1000) (ha : o % 8 = 0)
include h ha

/-- R55: what an aligned 64-bit read of the register page answers. -/
theorem eventAnswers_read_page : eventAnswers (.access (.read e o 8)) x = [.value (registerPageValue e x o)] := by
  simp only [eventAnswers, decode_read_page h ha]
  cases hreg : regAt o with
  | none => rw [registerPageValue_reserved e x hreg]; rfl
  | some r =>
    rw [← offset_of_regAt hreg, ← Engine.readReg_eq_registerPageValue]
    cases r <;> rfl

/-- R55, R170: what an aligned 64-bit write of the register page other than to CMD does, and that it is answered as completed. -/
theorem event_write_page (hcmd : o ≠ 0x008) (v : Word) :
    eventAnswers (.access (.write e o 8 v)) x = [.done] ∧
      eventEffect (.access (.write e o 8 v)) x = registerPageStore e x o v := by
  simp only [eventAnswers, eventEffect, decode_write_page h ha]
  cases hreg : regAt o with
  | none => exact ⟨rfl, (registerPageStore_reserved e x hreg v).symm⟩
  | some r =>
    obtain rfl := offset_of_regAt hreg
    cases r
    case cmd => exact absurd rfl hcmd
    case seed2 => cases e <;> exact ⟨rfl, rfl⟩
    all_goals exact ⟨rfl, rfl⟩

end RegisterPage

/-- R56: a key-buffer read is the sum of the bytes below KEYBUF_BYTES. -/
theorem Engine.readKey_eq_bytesValue (x : Engine) (i n : Nat) :
    x.readKey i n = bytesValue (fun j => if j < x.params.keybufBytes then x.keyBuf.read j else 0) i n :=
  littleEndian_eq_bytesValue x.keyByte i n

/-- R199, R54–R57: a bad access that reaches its engine is answered by a bus error and nothing else. -/
theorem exists_step_busError {s : State} {a : BusAccess} {rest : List HostEvent} {e : EngineKind}
    (hport : s.port = .access a :: rest) (hreaches : reaches (.access a) s = true) (hd : decode a = .error (.busError e)) :
    ∃ t, step s = .next t ∧ answersOnly { s with port := rest } t .busError :=
  exists_step_answersOnly_of_decode_error hport hreaches hd rfl rfl

/-- R176: an instruction that is a register read answers the register map's value. -/
theorem exists_exec_answersOnly_register {i : Instr} {s : State} {e : EngineKind} (r : Reg)
    (hexec : exec i s = .next (s.answer ((s.engine e).readReg e r))) :
    ∃ t, exec i s = .next t ∧ answersOnly s t (.value (registerPageValue e (s.engine e) r.offset)) := by
  rw [← Engine.readReg_eq_registerPageValue]
  exact ⟨_, hexec, answersOnly_respond s _⟩

/-! ### Two engines side by side -/

/-- R13: whether an event reaches its engine depends on that engine and on which engines exist. -/
theorem reaches_congr {ev : HostEvent} {s s' : State} (hengine : s.engine (eventTarget ev) = s'.engine (eventTarget ev))
    (hinstances : s.instances = s'.instances) : reaches ev s = reaches ev s' := by
  cases ev with
  | access a =>
    replace hengine : s.engine a.engine = s'.engine a.engine := hengine
    rw [reaches, reaches, hinstances, hengine]
  | reset e => rw [reaches, reaches, hinstances]

end Sys2Proof.Machine

namespace Sys2Proof.Proofs

/-- Settles O5, by `step_of_decode_ok`. -/
theorem stepRunsDecodedInstruction : Obligations.StepRunsDecodedInstruction :=
  fun _ _ _ _ hport hengine hwindow hdecode => step_of_decode_ok hport hengine hwindow hdecode

/-- Settles O6: the access reaches its engine, and every access has one answer. -/
theorem windowAccessCompletesInOrder : Obligations.WindowAccessCompletesInOrder := by
  intro s a rest hport hengine hwindow
  obtain ⟨r, hanswers⟩ := exists_eventAnswers_access a (s.engine a.engine)
  obtain ⟨t, hstep, _, _, hinstances, hrest, hresponses⟩ :=
    exists_step_changesOnly hport (reaches_access hengine hwindow) hanswers rfl
  exact ⟨t, r, hstep, hrest, hresponses, hinstances⟩

/-- Settles O7, by `step_idle`. -/
theorem idlePortChangesNothing : Obligations.IdlePortChangesNothing := fun _ => step_idle

/-- Settles O8: fetch stops before the decoder, first for an absent engine, then for an offset beyond the raw window. -/
theorem eventsOutsideEnginesStop : Obligations.EventsOutsideEnginesStop :=
  ⟨fun _ _ _ hport habsent => step_absentEngine hport habsent,
    fun _ _ _ hport hengine hbeyond => step_outsideWindow hport hengine (Engine.inWindow_eq_false hbeyond)⟩

/-- Settles O9: the widths and offsets named are those of `badAccess`, which decodes to a bus error for reads and writes. -/
theorem badAccessGetsBusError : Obligations.BadAccessGetsBusError := by
  rintro s a rest e offset width ha hport hengine hwindow hbad
  obtain ⟨hread, hwrite⟩ := decode_badAccess (e := e) hbad
  obtain rfl | ⟨v, rfl⟩ := ha
  · exact exists_step_busError hport (reaches_access hengine hwindow) hread
  · exact exists_step_busError hport (reaches_access hengine hwindow) (hwrite v)

/-- Settles O10: a read changes no engine, and the decoder's register is the one of the register map. -/
theorem registerPageReads : Obligations.RegisterPageReads := by
  intro s e offset rest hpage haligned hport hengine
  have hreaches : reaches (.access (.read e offset 8)) s = true :=
    reaches_access_of_lt hengine (hpage.trans (by decide))
  exact exists_step_answersOnly hport hreaches (eventAnswers_read_page _ hpage haligned) (eventEffect_read e offset 8 _)

/-- Settles O11, by `event_write_page`. -/
theorem registerPageWrites : Obligations.RegisterPageWrites := by
  intro s e offset v rest hpage haligned hcmd hport hengine
  have hreaches : reaches (.access (.write e offset 8 v)) s = true :=
    reaches_access_of_lt hengine (hpage.trans (by decide))
  obtain ⟨hanswers, heffect⟩ := event_write_page (e := e) (s.engine e) hpage haligned hcmd v
  exact exists_step_changesOnly hport hreaches hanswers heffect

/-- Settles O13: the access decodes to a key-buffer read, whose value is the sum of its bytes. -/
theorem keyBufferWindowReads : Obligations.KeyBufferWindowReads := by
  intro s e k n rest hk haligned hport hengine
  have hlt : 0x1000 + k < 0x10000 := by omega
  rw [← Engine.readKey_eq_bytesValue]
  exact exists_step_answersOnly_of_decode_error hport (reaches_access_of_lt hengine hlt) (decode_read_keyBuf hk haligned)
    rfl rfl

/-- Settles O14: above the key-buffer window a read of the reserved range reads 0, and a write is ignored. -/
theorem reservedRangeAndRawWrites : Obligations.ReservedRangeAndRawWrites := by
  constructor
  · intro s e offset n rest hlow hhigh haligned hport hengine
    exact exists_step_answersOnly_of_decode_error hport (reaches_access_of_lt hengine hhigh)
      (decode_read_reserved hlow hhigh haligned) rfl rfl
  · intro s e offset n v rest hlow haligned hwindow hport hengine
    exact exists_step_answersOnly_of_decode_error hport (reaches_access hengine hwindow)
      (decode_write_ignored hlow haligned) rfl rfl

/-- Settles O15: the event leaves the engine as `Engine.atReset` of its parameters, whose values R45 gives. -/
theorem resetEventClearsEngine : Obligations.ResetEventClearsEngine := by
  intro s e rest hport hengine
  have heffect : (afterEvent s (.reset e) rest).engine e = Engine.atReset (s.engine e).params := by
    rw [afterEvent_engine]; exact if_pos rfl
  refine ⟨_, (step_event hport).1 hengine, rfl, rfl, afterEvent_instances s _ rest, fun f hf => ?_, ?_⟩
  · rw [afterEvent_engine]; exact if_neg hf
  · rw [heffect]
    exact ⟨Engine.atReset_params _, Engine.atReset_sizeBits _, Engine.atReset_numHashes _, Engine.atReset_seed1 _,
      Engine.atReset_seed2 _, Engine.atReset_keyLen _, Engine.atReset_keyCount _, statusNumber_atReset _,
      Engine.atReset_cfg _, Memory.read_nil, Memory.read_nil, registerPageValue_atReset _ e⟩

/-- Settles O17: each row is an engine's write to one register, SEED2 of a BW engine excepted. -/
theorem registerWriteRows : Obligations.RegisterWriteRows := by
  intro s e v
  have hseed2 : Engine.setSeed2 e v (s.engine e) = if e = .dh then { s.engine e with seed2 := v } else s.engine e := by
    cases e <;> rfl
  exact ⟨exists_next_changesOnly (f := fun x => { x with sizeBits := v }) rfl rfl,
    exists_next_changesOnly (f := fun x => { x with numHashes := v }) rfl rfl,
    exists_next_changesOnly (f := fun x => { x with seed1 := v }) rfl rfl,
    exists_next_changesOnly rfl hseed2,
    exists_next_changesOnly (f := fun x => { x with keyLen := v }) rfl rfl,
    exists_next_changesOnly (f := fun x => { x with keyCount := v }) rfl rfl⟩

/-- Settles O19: each row answers the register map's value at its register's offset. -/
theorem accessorReadRows : Obligations.AccessorReadRows := by
  intro s e
  exact ⟨exists_exec_answersOnly_register .id rfl, exists_exec_answersOnly_register .status rfl,
    exists_exec_answersOnly_register .capacityBits rfl, exists_exec_answersOnly_register .kEff rfl,
    exists_exec_answersOnly_register .rawBytes rfl, exists_exec_answersOnly_register .blockBits rfl⟩

/-- Settles O21: STATUS is a concatenation of three finite fields, checked for each value of ERR and of the two flags. -/
theorem statusFieldsAtTheirBits : Obligations.StatusFieldsAtTheirBits := by
  intro x
  rw [Engine.status]
  generalize x.configured = configured
  generalize x.result = result
  cases x.err <;> revert result configured <;> decide

/-- Settles O33: the two definitions are the same five steps, named by `xorShift` in one and written out in the other. -/
theorem mixIsTheFiveSteps : Obligations.MixIsTheFiveSteps := fun _ _ => rfl

/-- Settles O50: an event updates the engine it is addressed to. -/
theorem enginesShareNoState : Obligations.EnginesShareNoState := by
  intro e s t ev rest hstep hport hne
  obtain ⟨hidle, _⟩ | ⟨ev', rest', hport', _, rfl⟩ := step_cases hstep
  · rw [hport] at hidle; cases hidle
  · rw [hport] at hport'; cases hport'
    rw [afterEvent_engine, if_neg (Ne.symm hne)]

/-- Settles O51: whether the event reaches its engine, its effect there and its answers are functions of that engine. -/
theorem engineIgnoresTheOther : Obligations.EngineIgnoresTheOther := by
  rintro e s s' t ev rest hport hport' rfl hengine hinstances hresponses hstep
  obtain ⟨hidle, _⟩ | ⟨ev', rest', hhead, hreaches, rfl⟩ := step_cases hstep
  · rw [hport] at hidle; cases hidle
  · rw [hport] at hhead; cases hhead
    rw [reaches_congr hengine hinstances] at hreaches
    refine ⟨_, (step_event hport').1 hreaches, ?_, ?_⟩
    · rw [afterEvent_engine, afterEvent_engine, hengine]
    · rw [afterEvent_responses, afterEvent_responses, hengine, hresponses]

end Sys2Proof.Proofs
end
